-- ==== Sys2Proof/Word.lean ====
section
/-! DEFINITION. The value types of SFF (spec/00_scope.md R11, R15): bytes, segment masks and the seven segments. -/

namespace Sys2Proof

/-- A byte, 0..255, bit 7 most significant. Every operand of every command is one (R10, R11). -/
abbrev Byte := BitVec 8

/-- A SegmentMask, 0..0x7F: one bit per segment (R7 `MASKW`, R15). -/
abbrev SegmentMask := BitVec 7

/-- The seven strokes of a cell (spec/00_scope.md glossary): A top, B upper right, C lower right, D bottom,
E lower left, F upper left, G middle. -/
inductive Segment where
  | a | b | c | d | e | f | g
deriving DecidableEq, Repr

end Sys2Proof
end

