-- ==== Sys2Proof/Config.lean ====
section
/-! DEFINITION. What the source fixes (spec/00_scope.md R7), the two open parameters FONT and PMAX (R8, R9), the
collaborator's constants (spec/10_state.md R30) and the free values the model applies where an input is open. -/

namespace Sys2Proof

/-- The parameters of the step relation (spec/10_state.md R37): any instance the spec admits, and no other.
They ride in the state because a step takes nothing else; no step writes them (notes/assumptions/2.md, 3.md). -/
structure Params where
  /-- PMAX less its least value 5: PMAX is between 5 and 255 (R9). -/
  pmaxOver5 : Fin 251
  /-- FONT[1] to FONT[36], in the order of the string of R8; FONT[0] = 0 is fixed by the source and not held. -/
  glyphs : Vector SegmentMask 36
deriving DecidableEq, Repr

/-- PMAX, the greatest payload length ENCODE and SEND accept (R9). -/
def Params.pmax (p : Params) : Nat := 5 + p.pmaxOver5.val

/-- BusTiming and the direction-control levels of the serial collaborator, in the units of their names
(spec/10_state.md R30, spec/42_bus_transport.md R186 to R188). Informative: no rule of SFF reads one. -/
structure BusTiming where
  baud : Nat
  preTransmitMs : Nat
  postTransmitMs : Nat
  readTimeoutMs : Nat
  /-- The request-to-send level asserted while receiving (R187). -/
  receiveLevelHigh : Bool
  /-- The request-to-send level asserted while transmitting (R187). -/
  transmitLevelHigh : Bool
deriving DecidableEq, Repr

namespace Config

/-- CMD_SEG3, the command byte of a 3-cell raw-segment write (R7). -/
def cmdSeg3 : Byte := 0xAE
/-- PAD_TAIL, the last byte of the SEG3 payload (R7). -/
def padTail : Byte := 0x00
/-- ESC, the escape marker (R7). -/
def escMarker : Byte := 0xFE
/-- DELIM, the frame delimiter (R7). -/
def delim : Byte := 0xFF
/-- ESC_FE, the second byte of the pair for a literal 0xFE (R7). -/
def escFE : Byte := 0x00
/-- ESC_FF, the second byte of the pair for a literal 0xFF (R7). -/
def escFF : Byte := 0x01
/-- The greatest SegmentMask, 0x7F (R7 `MASKW`, R15). -/
def maskMax : Byte := 0x7F
/-- DIGIT_LIMIT: a digit is valid iff it is below 0xF (R7). -/
def digitLimit : Byte := 0x0F
/-- STRLEN_MAX: a DisplayString has at most 3 characters (R7). -/
def strlenMax : Nat := 3
/-- The character code of space, which pads a string (spec/30_encoding.md R101). -/
def space : Byte := 0x20

/-- The collaborator's constants (spec/10_state.md R30, spec/42_bus_transport.md R186 to R188). -/
def busTiming : BusTiming where
  baud := 4800
  preTransmitMs := 250
  postTransmitMs := 250
  readTimeoutMs := 100
  receiveLevelHigh := true
  transmitLevelHigh := false

/-- The reference value of PMAX is 32 (R9): this is 32 - 5. DESIGN CHOICE, notes/assumptions/2.md. -/
def referencePmaxOver5 : Fin 251 := 27

/-- FONT[1] to FONT[36] of the machine after reset: the source gives no value (R8, R123), so nothing can be
proved of one. A free value, notes/assumptions/3.md. -/
opaque glyphs : Vector SegmentMask 36

/-- The transport draw of R183 for the transmitting command of the given step, where the list of draws is at its
end: none, or the number of bytes handed over before the channel failed. A free value, notes/assumptions/6.md. -/
opaque freeDraw : Nat → Option Nat

/-- The level of the command port's `valid` input (spec/10_state.md R33) in the given step, where the list of input
levels is at its end. A free value, notes/assumptions/7.md. -/
opaque freeValid : Nat → Bool

/-- The level of tx_ready (R35) in the given step, where the list of input levels is at its end. A free value,
notes/assumptions/7.md. -/
opaque freeTxReady : Nat → Bool

/-- The level of tx_err (R36) in the given step, where the list of input levels is at its end. A free value,
notes/assumptions/7.md. -/
opaque freeTxErr : Nat → Bool

end Config

end Sys2Proof
end

