-- ==== Sys2Proof/Syntax.lean ====
section
/-! DEFINITION. The command descriptor (spec/30_encoding.md R81) and the operations of spec/opcode_table.json. -/

namespace Sys2Proof

/-- A command descriptor as the command port carries it: `3 + N` bytes (R81). -/
structure Descriptor where
  opc : Byte
  addr : Byte
  n : Byte
  opnd : List Byte
deriving DecidableEq, Repr

/-- One constructor per row of spec/opcode_table.json: the address byte and the operand bytes in descriptor order
(R82, R83). The count N is the length of the operand list; what a count means for an operation is in its
meaning, since a wrong count is an error result and not an undecodable word (R85). -/
inductive Instr where
  /-- OPC 0x00: operand, one character code (R120). -/
  | lookup (addr : Byte) (opnd : List Byte)
  /-- OPC 0x01: operands, the payload (R148). -/
  | encode (addr : Byte) (opnd : List Byte)
  /-- OPC 0x02: operands, the payload (R181). -/
  | send (addr : Byte) (opnd : List Byte)
  /-- OPC 0x03: operands, the left, middle and right mask (R201). -/
  | wrseg (addr : Byte) (opnd : List Byte)
  /-- OPC 0x04: operands, the left, middle and right digit (R202). -/
  | wrdig (addr : Byte) (opnd : List Byte)
  /-- OPC 0x05: operands, the characters of the string, leftmost first (R203). -/
  | wrstr (addr : Byte) (opnd : List Byte)
  /-- Byte 0 is 0xAE, the command byte of the SEG3 wire payload (R96): a descriptor that begins with it names no
  operation (R84, spec/95_test_vectors.md D-E3; notes/assumptions/9.md). -/
  | seg3 (addr : Byte) (opnd : List Byte)
deriving DecidableEq, Repr

/-- The display address byte of a command, `ADDR` (R81). -/
def Instr.addr : Instr → Byte
  | .lookup a _ => a
  | .encode a _ => a
  | .send a _ => a
  | .wrseg a _ => a
  | .wrdig a _ => a
  | .wrstr a _ => a
  | .seg3 a _ => a

/-- The operand bytes of a command, `OPND[0..N-1]` (R81). -/
def Instr.opnd : Instr → List Byte
  | .lookup _ o => o
  | .encode _ o => o
  | .send _ o => o
  | .wrseg _ o => o
  | .wrdig _ o => o
  | .wrstr _ o => o
  | .seg3 _ o => o

end Sys2Proof
end

