-- ==== Sys2Proof/WellFormed.lean ====
section
/-! DEFINITION. Which commands the command port can carry (spec/30_encoding.md R81), and which of them have a shape
their operation admits (R85). -/

namespace Sys2Proof

/-- A command a descriptor can hold: the count N is one byte, 0..255 (R81). -/
def Instr.wf (i : Instr) : Bool := decide (i.opnd.length ≤ 255)

/-- The shapes R85 admits, by operation: the count of operands only, never their values. A command of another
shape is accepted and ends in an error (R85 (a) to (e)). -/
def Instr.wellShaped (pmax : Nat) : Instr → Bool
  | .lookup _ o => decide (o.length = 1)
  | .encode _ o => decide (o.length ≤ pmax)
  | .send _ o => decide (o.length ≤ pmax)
  | .wrseg _ o => decide (o.length = 3)
  | .wrdig _ o => decide (o.length = 3)
  | .wrstr _ o => decide (o.length ≤ Config.strlenMax)
  | .seg3 _ _ => false

end Sys2Proof
end

