-- ==== Sys2Proof/Decode.lean ====
section
/-! DEFINITION. Reading a command from the bytes of the command port and writing one (spec/30_encoding.md R81, R82). -/

namespace Sys2Proof

/-- Why no command is read. -/
inductive DecodeError where
  /-- The bytes do not hold a whole descriptor of `3 + N` bytes: the host has not presented one (R33, R81). -/
  | incomplete
  /-- The operation code names no operation (R84). -/
  | reserved (opc : Byte)
deriving DecidableEq, Repr

/-- The first descriptor of a stream of bytes, and the bytes after it. Its length is told by its byte 2 (R81). -/
def splitDescriptor : List Byte → Option (Descriptor × List Byte)
  | opc :: addr :: n :: rest =>
    if n.toNat ≤ rest.length then some (⟨opc, addr, n, rest.take n.toNat⟩, rest.drop n.toNat) else none
  | _ => none

/-- The command of a descriptor (R82). 0xAE is the row SEG3 of spec/opcode_table.json, every other code from 0x06
up is reserved (R84). -/
def decodeDescriptor (d : Descriptor) : Except DecodeError Instr :=
  match d.opc.toNat with
  | 0x00 => .ok (.lookup d.addr d.opnd)
  | 0x01 => .ok (.encode d.addr d.opnd)
  | 0x02 => .ok (.send d.addr d.opnd)
  | 0x03 => .ok (.wrseg d.addr d.opnd)
  | 0x04 => .ok (.wrdig d.addr d.opnd)
  | 0x05 => .ok (.wrstr d.addr d.opnd)
  | 0xAE => .ok (.seg3 d.addr d.opnd)
  | _ => .error (.reserved d.opc)

/-- The first command of a stream of bytes, and the bytes after it. Total on any bytes. -/
def decode (bytes : List Byte) : Except DecodeError (Instr × List Byte) :=
  match splitDescriptor bytes with
  | none => .error .incomplete
  | some (d, rest) =>
    match decodeDescriptor d with
    | .error e => .error e
    | .ok i => .ok (i, rest)

/-- The operation code of a command (R82; R96 for SEG3). -/
def opcodeOf : Instr → Byte
  | .lookup _ _ => 0x00
  | .encode _ _ => 0x01
  | .send _ _ => 0x02
  | .wrseg _ _ => 0x03
  | .wrdig _ _ => 0x04
  | .wrstr _ _ => 0x05
  | .seg3 _ _ => 0xAE

/-- The descriptor of a command (R81). -/
def descriptorOf (i : Instr) : Descriptor := ⟨opcodeOf i, i.addr, BitVec.ofNat 8 i.opnd.length, i.opnd⟩

/-- The bytes of a descriptor in order (R81). -/
def descriptorBytes (d : Descriptor) : List Byte := d.opc :: d.addr :: d.n :: d.opnd

/-- The bytes of a command, byte 0 first (R81, R82). -/
def encode (i : Instr) : List Byte := descriptorBytes (descriptorOf i)

/-- Byte `k` of an instruction whose bits are the low `nbits` bits of `w`, every bit above them 0. -/
def wordByte (nbits w k : Nat) : Byte := BitVec.ofNat 8 (w % 2 ^ nbits / 2 ^ (8 * k))

/-- The descriptor bytes that the low `nbits` bits of `w` stand for: bytes 0 to 2, then as many as byte 2 says. -/
def wordBytes (nbits w : Nat) : List Byte :=
  (List.range (3 + (wordByte nbits w 2).toNat)).map (wordByte nbits w)

/-- The command the decoder reads from an instruction whose bits are `w`, numbered from bit 0 of byte 0. -/
def decodeTableWord (nbits w : Nat) : Option Instr :=
  match decode (wordBytes nbits w) with
  | .ok (i, _) => some i
  | .error _ => none

end Sys2Proof
end

