-- ==== Sys2Proof/Machine/State.lean ====
section
/-! DEFINITION. The state of SFF as plain data, its value after reset, and the reasons a step can stop. -/

namespace Sys2Proof.Machine

open Sys2Proof

/-- The two levels at which the spec describes SFF (spec/00_scope.md R6): one command a step, or one byte a step.
The model's own choice of which, notes/assumptions/1.md. -/
inductive Level where
  | transaction | byte
deriving DecidableEq, Repr

/-- PHASE (spec/10_state.md R24). -/
inductive Phase where
  | idle | hdr | body | trl
deriving DecidableEq, Repr

/-- DEST (spec/10_state.md R27): where emitted bytes go, the TX port (0) or the result port (1). -/
inductive Dest where
  | txPort | resultPort
deriving DecidableEq, Repr

/-- The status of a result (spec/60_exceptions.md R231). -/
inductive Status where
  | ok | invalidInput | outOfRange | unsupportedCharacter | transportError | illegalCommand
deriving DecidableEq, Repr

/-- What the result port carries for one command (spec/10_state.md R34). -/
structure Result where
  status : Status
  data : List Byte
deriving DecidableEq, Repr

/-- The levels of SFF's input pins in one step: the reset input (spec/70_reset_and_hazards.md R270), the command port's
`valid` (spec/10_state.md R33), tx_ready (R35) and tx_err (R36). -/
structure Pins where
  rst : Bool
  valid : Bool
  txReady : Bool
  txErr : Bool
deriving DecidableEq, Repr

/-- All the state the spec gives SFF, and the inputs a step reads, as plain data. -/
structure State where
  /-- Which of R6's levels a step is at. The model's own field, never written by a step. -/
  level : Level
  /-- FONT and PMAX (spec/10_state.md R37), never written by a step. -/
  par : Params
  /-- `tx`, every byte handed to the serial channel since reset, oldest first (R20). -/
  tx : List Byte
  /-- OPC (R22). -/
  opc : Byte
  /-- ADDR (R22). -/
  addr : Byte
  /-- N (R22). -/
  n : Byte
  /-- OPND[0..N-1] (R22). -/
  opnd : List Byte
  /-- PBUF[0..PMAX-1] (R23). -/
  pbuf : List Byte
  /-- PLEN (R23). -/
  plen : Nat
  /-- PASS (R24): false in the first copy of the wrapped sequence, true in the second. -/
  pass : Bool
  /-- PHASE (R24). -/
  phase : Phase
  /-- IDX (R24). -/
  idx : Nat
  /-- ESC (R25). -/
  esc : Bool
  /-- CSUM (R26). -/
  csum : Byte
  /-- DEST (R27). -/
  dest : Dest
  /-- The result data emitted so far by the command in progress (spec/41_packet_codec.md R155, R160). -/
  rdata : List Byte
  /-- The result port: the result this step produced, if it produced one (R34). -/
  result : Option Result
  /-- Input: the bytes of the descriptors the host has still to transfer on the command port, oldest first (R33). In
  which steps the host presents the first of them is told by `Pins.valid`. -/
  cmdPort : List Byte
  /-- Input: the levels of the pins in the coming steps, the next step first. -/
  pins : List Pins
  /-- Input: the transport draws of the coming transmitting commands at the transaction level
  (spec/42_bus_transport.md R183), the next first. -/
  draws : List (Option Nat)
  /-- The model's count of steps, the argument of the free values (notes/assumptions/14.md). -/
  clock : Nat
deriving DecidableEq, Repr

/-- Why the machine stops. No state that a run from reset reaches raises one (notes/assumptions/12.md). -/
inductive Fault where
  /-- Raised by the sequencer in HDR or TRL when IDX is past the five sentinel bytes, a state that R40 calls
  unreachable. Safe: the machine stops where the spec gives no step. -/
  | sentinelIndex
  /-- Raised by the sequencer in BODY when IDX is past the frame or PBUF does not hold the payload byte, a state
  that R40 calls unreachable. Safe: the machine stops where the spec gives no step. -/
  | frameIndex
deriving DecidableEq, Repr

/-- Why an instruction has no meaning. -/
inductive Refusal where
  /-- Raised by an arm of `exec` whose instruction is not modelled; no arm raises it. Safe. -/
  | notModelled (mnemonic : String)
deriving DecidableEq, Repr

/-- The machine right after reset (R38, R271). OPC, ADDR, N, OPND and PBUF have no reset value in the spec: zero is a
DESIGN CHOICE (notes/assumptions/4.md); so are the level, PMAX and the inputs (1.md, 2.md, 5.md, 6.md, 7.md). -/
def State.reset : State where
  level := .transaction
  par := ⟨Config.referencePmaxOver5, Config.glyphs⟩
  tx := []
  opc := 0
  addr := 0
  n := 0
  opnd := []
  pbuf := List.replicate 32 0
  plen := 0
  pass := false
  phase := .idle
  idx := 0
  esc := false
  csum := 0
  dest := .txPort
  rdata := []
  result := none
  cmdPort := []
  pins := []
  draws := []
  clock := 0

end Sys2Proof.Machine
end

