-- ==== Sys2Proof/Machine/Codec.lean ====
section
/-! DEFINITION. The function `encode` of the Packet Codec, step by step, and the reference unstuffer
(spec/41_packet_codec.md R140 to R154). Pure functions of an address and a payload. -/

namespace Sys2Proof.Machine

open Sys2Proof

/-- `sum(s)`: the sum of the elements as natural numbers (R12). -/
def byteSum (s : List Byte) : Nat := (s.map BitVec.toNat).sum

/-- A byte that the stuffing replaces by a pair: 0xFE or 0xFF (R91). -/
def needsEscape (b : Byte) : Bool := decide (b = Config.escMarker ∨ b = Config.delim)

/-- `stuff1`, the escape table (R91, R140). -/
def stuff1 (b : Byte) : List Byte :=
  if b = Config.escMarker then [Config.escMarker, Config.escFE]
  else if b = Config.delim then [Config.escMarker, Config.escFF]
  else [b]

/-- Byte-stuffing of a list, each byte on its own, in order (R144). -/
def stuff (f : List Byte) : List Byte := f.flatMap stuff1

/-- Step 1, `data` (R141). -/
def packetData (a : Byte) (p : List Byte) : List Byte := a :: p

/-- Step 2, the sum modulo 256 of the unescaped bytes, one byte (R142). -/
def checksum (data : List Byte) : Byte := BitVec.ofNat 8 (byteSum data)

/-- Step 3, `frame` (R143). -/
def frame (a : Byte) (p : List Byte) : List Byte := packetData a p ++ [checksum (packetData a p)]

/-- Step 4, the escaped body (R144). -/
def escapedBody (a : Byte) (p : List Byte) : List Byte := stuff (frame a p)

/-- The header, the address bare (R87, R93). -/
def header (a : Byte) : List Byte := [Config.delim, a, a, Config.delim, Config.delim]

/-- The trailer, the address bare (R88, R93). -/
def trailer (a : Byte) : List Byte := [Config.delim, Config.delim, a, a, Config.delim]

/-- Step 5, the wrapped sequence (R145). -/
def wrapped (a : Byte) (p : List Byte) : List Byte := header a ++ escapedBody a p ++ trailer a

/-- Step 6 and the whole of `encode(a, p)`: two copies of the wrapped sequence (R140, R146). -/
def encodePacket (a : Byte) (p : List Byte) : List Byte := wrapped a p ++ wrapped a p

/-- `e` of R94 and R153: how many bytes of the frame are replaced by a pair. -/
def escapeCount (a : Byte) (p : List Byte) : Nat := (frame a p).countP needsEscape

/-- `unstuff`, the reference inverse of the stuffing: none stands for `malformed` (R150). SFF holds no receiver; the
function is here to state what the body holds. -/
def unstuff : List Byte → Option (List Byte)
  | [] => some []
  | b :: rest =>
    if b = Config.delim then none
    else if b = Config.escMarker then
      match rest with
      | [] => none
      | x :: rest' =>
        if x = Config.escFE then (unstuff rest').map (Config.escMarker :: ·)
        else if x = Config.escFF then (unstuff rest').map (Config.delim :: ·)
        else none
    else (unstuff rest).map (b :: ·)

end Sys2Proof.Machine
end

