-- ==== Sys2Proof/Machine/Flags.lean ====
section
/-! DEFINITION. SFF has no condition codes (spec/10_state.md R28). What stands in their place: the numeric codes of
its statuses and phases, and the port signals derived from the state. -/

namespace Sys2Proof.Machine

open Sys2Proof

/-- The 3-bit code of a status; 6 and 7 are never produced (spec/60_exceptions.md R231). -/
def Status.code : Status → BitVec 3
  | .ok => 0
  | .invalidInput => 1
  | .outOfRange => 2
  | .unsupportedCharacter => 3
  | .transportError => 4
  | .illegalCommand => 5

/-- The 2-bit code of a phase (spec/10_state.md R24). -/
def Phase.code : Phase → BitVec 2
  | .idle => 0
  | .hdr => 1
  | .body => 2
  | .trl => 3

/-- The 1-bit code of a destination (spec/10_state.md R27). -/
def Dest.code : Dest → BitVec 1
  | .txPort => 0
  | .resultPort => 1

/-- BUSY = (PHASE != IDLE), derived and not stored (R28). -/
def State.busy (s : State) : Bool := decide (s.phase ≠ .idle)

/-- The command port's ready signal, the complement of BUSY (R28, R33). -/
def State.ready (s : State) : Bool := decide (s.phase = .idle)

/-- The TX port's tx_valid signal (R35). -/
def State.txValid (s : State) : Bool := s.busy && decide (s.dest = .txPort)

end Sys2Proof.Machine
end

