-- ==== Sys2Proof/Machine/Operands.lean ====
section
/-! DEFINITION. The operand forms of SFF: characters, digits, strings and masks (spec/20_memory.md R51, R52, R58,
spec/30_encoding.md R96, R99 to R102). -/

namespace Sys2Proof.Machine

open Sys2Proof

/-- A mask in a whole byte, bit 7 clear: `zext_8` of R11. -/
def zext8 (m : SegmentMask) : Byte := m.setWidth 8

/-- The bit of a mask that lights a segment, under the spec's reading (R58; notes/assumptions/16.md). -/
def segmentBit : Segment → Nat
  | .a => 0
  | .b => 1
  | .c => 2
  | .d => 3
  | .e => 4
  | .f => 5
  | .g => 6

/-- Whether a mask lights a segment (R15, R58). No operation of SFF reads it. -/
def lit (m : SegmentMask) (seg : Segment) : Bool := m.getLsbD (segmentBit seg)

/-- `FontRead(i)`: entry 0 is 0, the others are the parameter's (R51, R122, R130). -/
def fontRead (par : Params) (i : Fin 37) : SegmentMask :=
  if h : i.val = 0 then 0 else par.glyphs[i.val - 1]'(by omega)

/-- A lower-case letter's code becomes the upper-case one, 0x20 less; no other code changes (R102, R121). -/
def foldCase (c : Byte) : Byte := if 0x61 ≤ c ∧ c ≤ 0x7A then c - 0x20 else c

/-- `fidx`, the font index of a character code: none where the code is unsupported (R52). -/
def fidx (c : Byte) : Option (Fin 37) :=
  let u := (foldCase c).toNat
  if u = 0x20 then some 0
  else if h : 0x30 ≤ u ∧ u ≤ 0x39 then some ⟨u - 0x30 + 1, by omega⟩
  else if h : 0x41 ≤ u ∧ u ≤ 0x5A then some ⟨u - 0x41 + 11, by omega⟩
  else none

/-- The internal function `mask`, LOOKUP without the count check: none stands for UnsupportedCharacter (R128). -/
def mask (par : Params) (c : Byte) : Option SegmentMask :=
  match fidx c with
  | some i => some (fontRead par i)
  | none => none

/-- `hexchar`, the character code of a digit (R100). -/
def hexchar (d : Byte) : Byte := if d ≤ 9 then 0x30 + d else 0x41 + (d - 10)

/-- `pad3`: spaces are added on the right until the length is 3 (R101). -/
def pad3 (s : List Byte) : List Byte := s ++ List.replicate (3 - s.length) Config.space

/-- A byte that is a valid SegmentMask, 0..0x7F (R15, R201). -/
def validMask (b : Byte) : Bool := decide (b ≤ Config.maskMax)

/-- A byte that is a valid Digit, below 0xF (R15, R202, R205). -/
def validDigit (b : Byte) : Bool := decide (b < Config.digitLimit)

/-- The SEG3 payload: right, middle, left, the reverse of the argument order (R57, R96, R99). -/
def seg3Payload (left middle right : Byte) : List Byte :=
  [Config.cmdSeg3, right, middle, left, Config.padTail]

/-- What a well-formed SEG3 payload tells a display, as left, middle, right: the table of R96 read back. SFF itself
never reads one (R98). -/
def seg3Cells : List Byte → Option (SegmentMask × SegmentMask × SegmentMask)
  | [c, r, m, l, z] =>
    if c = Config.cmdSeg3 ∧ validMask r ∧ validMask m ∧ validMask l ∧ z = Config.padTail then
      some (l.setWidth 7, m.setWidth 7, r.setWidth 7)
    else none
  | _ => none

end Sys2Proof.Machine
end

