-- ==== Sys2Proof/Machine/Ops.lean ====
section
/-! DEFINITION. The shared operations: reading the inputs, accepting a command, writing to the channel, ending a
command with a result or an error, starting a packet and handing it over, and reset. -/

namespace Sys2Proof.Machine

open Sys2Proof

/-- The levels of the input pins in this step. Where the list is at its end, valid, tx_ready and tx_err are free values
and reset is not asserted (notes/assumptions/7.md). -/
def State.pinsNow (s : State) : Pins :=
  match s.pins with
  | p :: _ => p
  | [] => ⟨false, Config.freeValid s.clock, Config.freeTxReady s.clock, Config.freeTxErr s.clock⟩

/-- The transport draw of the transmitting command in this step (spec/42_bus_transport.md R183). Where the list is at
its end it is a free value (notes/assumptions/6.md). -/
def State.drawNow (s : State) : Option Nat :=
  match s.draws with
  | d :: _ => d
  | [] => Config.freeDraw s.clock

/-- What every step does to the inputs and to the result port: the step's pin levels are past, and the result of the
step before is gone, since a result is not sticky (spec/10_state.md R28). -/
def tick (s : State) : State := { s with pins := s.pins.tail, clock := s.clock + 1, result := none }

/-- The descriptor the host presents in this step and the bytes after it (spec/10_state.md R33): none where `valid` is
low, and none where no whole descriptor stands on the command port (notes/assumptions/5.md). -/
def fetch (s : State) : Option (Descriptor × List Byte) :=
  if s.pinsNow.valid then splitDescriptor s.cmdPort else none

/-- Command acceptance: the whole descriptor is taken at once and latched into OPC, ADDR, N and OPND
(spec/10_state.md R22, R33). -/
def accept (d : Descriptor) (rest : List Byte) (s : State) : State :=
  { tick s with cmdPort := rest, opc := d.opc, addr := d.addr, n := d.n, opnd := d.opnd }

/-- `TxWrite(b)`: the byte goes to the end of the transmit history (spec/20_memory.md R55). -/
def txWrite (b : Byte) (s : State) : State := { s with tx := s.tx ++ [b] }

/-- `for b in bytes, in order: TxWrite(b)` (spec/42_bus_transport.md R181). -/
def txWriteAll (bytes : List Byte) (s : State) : State := bytes.foldl (fun t b => txWrite b t) s

/-- The end of a command: the sequencer is idle and the result is on the result port (spec/10_state.md R34, R39,
spec/41_packet_codec.md R160). -/
def finish (status : Status) (data : List Byte) (s : State) : State :=
  { s with pass := false, phase := .idle, idx := 0, esc := false, rdata := [], result := some ⟨status, data⟩ }

/-- `raise <Kind>`, the one way a command ends in an error: its kind and no data, nothing saved, the sequencer idle
(spec/60_exceptions.md R237, R240). There is no handler to enter and no return operation: the next command is accepted
as after OK (R244). -/
def raise (kind : Status) (s : State) : State := finish kind [] s

/-- Acceptance of a command that emits a packet, every check passed: ADDR, PBUF, PLEN and DEST are written and the
sequencer stands before the first byte (spec/10_state.md R23, R27, spec/41_packet_codec.md R156). The entries of PBUF
past the payload keep what they held. -/
def startPacket (dest : Dest) (a : Byte) (p : List Byte) (s : State) : State :=
  { s with
    addr := a, pbuf := p ++ s.pbuf.drop p.length, plen := p.length, dest := dest,
    pass := false, phase := .hdr, idx := 0, esc := false, csum := 0, rdata := [] }

/-- The packet is handed to the channel at the transaction level, under the draw of R183: whole and OK, or its first
`k` bytes and TransportError. A draw past the packet's end takes the whole packet (notes/assumptions/6.md). -/
def handOver (pkt : List Byte) (s : State) : State :=
  match s.drawNow with
  | none => finish .ok [] (txWriteAll pkt { s with draws := s.draws.tail })
  | some k => raise .transportError (txWriteAll (pkt.take k) { s with draws := s.draws.tail })

/-- The common part of the transmitting operations once their checks have passed: at the byte level the sequencer is
started (R156), at the transaction level the packet is handed over in the same step (R182, R183). -/
def transmit (a : Byte) (p : List Byte) (s : State) : State :=
  match s.level with
  | .byte => startPacket .txPort a p s
  | .transaction => handOver (encodePacket a p) (startPacket .txPort a p s)

/-- The packet goes to the result port and `tx` is left alone (spec/41_packet_codec.md R148): at the byte level by the
sequencer, at the transaction level in the same step. -/
def returnPacket (a : Byte) (p : List Byte) (s : State) : State :=
  match s.level with
  | .byte => startPacket .resultPort a p s
  | .transaction => finish .ok (encodePacket a p) (startPacket .resultPort a p s)

/-- `perform SEND a, p`: the pseudocode of spec/42_bus_transport.md R181. -/
def performSend (a : Byte) (p : List Byte) (s : State) : State :=
  if s.par.pmax < p.length then raise .illegalCommand s else transmit a p s

/-- `perform WRSEG a, left, middle, right`: the pseudocode of spec/43_display_driver.md R201 after the count check. -/
def performWrseg (a left middle right : Byte) (s : State) : State :=
  if validMask left && validMask middle && validMask right then performSend a (seg3Payload left middle right) s
  else raise .outOfRange s

/-- The masks of three characters go to `perform WRSEG`; one unsupported character is enough for UnsupportedCharacter
(spec/43_display_driver.md R202, R203, spec/40_segment_font.md R128). -/
def performChars (a left middle right : Byte) (s : State) : State :=
  match mask s.par left, mask s.par middle, mask s.par right with
  | some l, some m, some r => performWrseg a (zext8 l) (zext8 m) (zext8 r) s
  | _, _, _ => raise .unsupportedCharacter s

/-- A step in which the reset input is asserted: every register at the value of R38 whatever SFF was doing, no result,
`tx` empty (spec/70_reset_and_hazards.md R270 to R273). FONT, PMAX and the inputs of the world outside are untouched.
The registers R38 leaves unspecified take the values of `State.reset` (notes/assumptions/4.md, 10.md). -/
def assertReset (s : State) : State :=
  { tick s with
    tx := [], opc := 0, addr := 0, n := 0, opnd := [], pbuf := List.replicate s.par.pmax 0, plen := 0,
    pass := false, phase := .idle, idx := 0, esc := false, csum := 0, dest := .txPort, rdata := [] }

end Sys2Proof.Machine
end

