-- ==== Sys2Proof/Machine/BusTransport.lean ====
section
/-! DEFINITION. The Bus Transport family (spec/42_bus_transport.md): SEND. -/

namespace Sys2Proof.Machine

open Sys2Proof

/-- SEND (R181): the packet to the channel; IllegalCommand when N > PMAX, TransportError when the channel fails. -/
def execSend (addr : Byte) (opnd : List Byte) (s : State) : Host.Outcome State Fault Refusal :=
  .next (performSend addr opnd s)

end Sys2Proof.Machine
end

