-- ==== Sys2Proof/Machine/DisplayDriver.lean ====
section
/-! DEFINITION. The Display Driver family (spec/43_display_driver.md): WRSEG, WRDIG, WRSTR. -/

namespace Sys2Proof.Machine

open Sys2Proof

/-- WRSEG (R201): three masks, left, middle, right. -/
def execWrseg (addr : Byte) (opnd : List Byte) (s : State) : Host.Outcome State Fault Refusal :=
  match opnd with
  | [left, middle, right] => .next (performWrseg addr left middle right s)
  | _ => .next (raise .illegalCommand s)

/-- WRDIG (R202): three digits below 0xF, each shown by the mask of its hexadecimal character. -/
def execWrdig (addr : Byte) (opnd : List Byte) (s : State) : Host.Outcome State Fault Refusal :=
  match opnd with
  | [dl, dm, dr] =>
    if validDigit dl && validDigit dm && validDigit dr then
      .next (performChars addr (hexchar dl) (hexchar dm) (hexchar dr) s)
    else .next (raise .outOfRange s)
  | _ => .next (raise .illegalCommand s)

/-- WRSTR (R203): at most three characters, padded on the right with spaces; the length is checked before any
character is read (spec/60_exceptions.md R246). -/
def execWrstr (addr : Byte) (opnd : List Byte) (s : State) : Host.Outcome State Fault Refusal :=
  if Config.strlenMax < opnd.length then .next (raise .invalidInput s)
  else
    let t := pad3 opnd
    .next (performChars addr (t.getD 0 Config.space) (t.getD 1 Config.space) (t.getD 2 Config.space) s)

end Sys2Proof.Machine
end

