-- ==== Sys2Proof/Machine/PacketCodec.lean ====
section
/-! DEFINITION. The Packet Codec family (spec/41_packet_codec.md): ENCODE. -/

namespace Sys2Proof.Machine

open Sys2Proof

/-- ENCODE (R148): the packet as result data, `tx` untouched; IllegalCommand when N > PMAX. -/
def execEncode (addr : Byte) (opnd : List Byte) (s : State) : Host.Outcome State Fault Refusal :=
  .next (if s.par.pmax < opnd.length then raise .illegalCommand s else returnPacket addr opnd s)

end Sys2Proof.Machine
end

