-- ==== Sys2Proof/Machine/SegmentFont.lean ====
section
/-! DEFINITION. The Segment Font family (spec/40_segment_font.md): LOOKUP. -/

namespace Sys2Proof.Machine

open Sys2Proof

/-- LOOKUP (R120): the count first, then the character; the mask in one byte, bit 7 clear. ADDR is ignored. -/
def execLookup (_addr : Byte) (opnd : List Byte) (s : State) : Host.Outcome State Fault Refusal :=
  match opnd with
  | [c] =>
    match fidx c with
    | none => .next (raise .unsupportedCharacter s)
    | some i => .next (finish .ok [zext8 (fontRead s.par i)] s)
  | _ => .next (raise .invalidInput s)

end Sys2Proof.Machine
end

