-- ==== Sys2Proof/Machine/WirePayload.lean ====
section
/-! DEFINITION. The wire payload family (spec/30_encoding.md section 3): SEG3. -/

namespace Sys2Proof.Machine

open Sys2Proof

/-- SEG3 on the command port. The payload `AE right middle left 00` is built by the driver operations
(`seg3Payload`) and read by the display, not by SFF (R96, R98); 0xAE as byte 0 of a descriptor names no operation, so
the descriptor is accepted, leaves `tx` alone and completes with IllegalCommand (R84, R85 (a), spec/60_exceptions.md
R235, spec/95_test_vectors.md D-E3; notes/assumptions/9.md). -/
def execSeg3 (_addr : Byte) (_opnd : List Byte) (s : State) : Host.Outcome State Fault Refusal :=
  .next (raise .illegalCommand s)

end Sys2Proof.Machine
end

