-- ==== Sys2Proof/Machine/Dispatch.lean ====
section
/-! DEFINITION. The meaning of each command, one arm a constructor. -/

namespace Sys2Proof.Machine

open Sys2Proof

def exec (i : Instr) (s : State) : Host.Outcome State Fault Refusal :=
  match i with
  | .lookup a o => Sys2Proof.Machine.execLookup a o s
  | .encode a o => Sys2Proof.Machine.execEncode a o s
  | .send a o => Sys2Proof.Machine.execSend a o s
  | .wrseg a o => Sys2Proof.Machine.execWrseg a o s
  | .wrdig a o => Sys2Proof.Machine.execWrdig a o s
  | .wrstr a o => Sys2Proof.Machine.execWrstr a o s
  | .seg3 a o => Sys2Proof.Machine.execSeg3 a o s

end Sys2Proof.Machine
end

