-- ==== Sys2Proof/Machine/Sequencer.lean ====
section
/-! DEFINITION. The byte-level reference sequencer: one byte a step (spec/41_packet_codec.md R155 to R160). -/

namespace Sys2Proof.Machine

open Sys2Proof

/-- `frame_byte(IDX)`, the frame as a view of ADDR, PBUF and CSUM (spec/20_memory.md R53, R54): none past the frame
or where PBUF does not hold the byte, which no reachable state is in (R40). -/
def frameByte (s : State) : Option Byte :=
  if s.idx = 0 then some s.addr
  else if s.idx ≤ s.plen then s.pbuf[s.idx - 1]?
  else if s.idx = s.plen + 1 then some s.csum
  else none

/-- `out(b)`: the emitted byte goes to the TX port or to the result data, as DEST says (R155). -/
def out (b : Byte) (s : State) : State :=
  match s.dest with
  | .txPort => txWrite b s
  | .resultPort => { s with rdata := s.rdata ++ [b] }

/-- The position after a header byte (R157). -/
def advanceHdr (s : State) : State :=
  if s.idx = 4 then { s with phase := .body, idx := 0, csum := 0, esc := false } else { s with idx := s.idx + 1 }

/-- The position after the last byte emitted for frame byte `b`: the `advance` of R158. -/
def advanceBody (b : Byte) (s : State) : State :=
  if s.idx ≤ s.plen then { s with csum := s.csum + b, idx := s.idx + 1 } else { s with phase := .trl, idx := 0 }

/-- The position after a trailer byte: the second copy, or the end of the command with status OK (R159, R160). -/
def advanceTrl (s : State) : State :=
  if s.idx < 4 then { s with idx := s.idx + 1 }
  else if s.pass then finish .ok s.rdata s
  else { s with pass := true, phase := .hdr, idx := 0 }

/-- A step in HDR (R157). -/
def stepHdr (s : State) : Host.Outcome State Fault Refusal :=
  match (header s.addr)[s.idx]? with
  | none => .fault .sentinelIndex
  | some b => .next (advanceHdr (out b s))

/-- A step in BODY (R158): a byte 0xFE or 0xFF takes two steps. -/
def stepBody (s : State) : Host.Outcome State Fault Refusal :=
  match frameByte s with
  | none => .fault .frameIndex
  | some b =>
    if s.esc then
      .next (advanceBody b { out (if b = Config.escMarker then Config.escFE else Config.escFF) s with esc := false })
    else if Config.escMarker ≤ b then .next { out Config.escMarker s with esc := true }
    else .next (advanceBody b (out b s))

/-- A step in TRL (R159). -/
def stepTrl (s : State) : Host.Outcome State Fault Refusal :=
  match (trailer s.addr)[s.idx]? with
  | none => .fault .sentinelIndex
  | some b => .next (advanceTrl (out b s))

/-- The step that emits one byte. In IDLE there is none to emit (R155). -/
def emitByte (s : State) : Host.Outcome State Fault Refusal :=
  match s.phase with
  | .idle => .next s
  | .hdr => stepHdr s
  | .body => stepBody s
  | .trl => stepTrl s

/-- A step while a command is in progress (R155): with the TX port as destination an error on tx_err aborts the
command and wins over a transfer (spec/42_bus_transport.md R183, spec/60_exceptions.md R247), and without tx_ready the
sequencer waits; the result port always takes the byte and tx_err is not sampled (spec/10_state.md R36). -/
def sequencerStep (s : State) : Host.Outcome State Fault Refusal :=
  match s.dest with
  | .resultPort => emitByte (tick s)
  | .txPort =>
    if s.pinsNow.txErr then .next (raise .transportError (tick s))
    else if s.pinsNow.txReady then emitByte (tick s)
    else .next (tick s)

end Sys2Proof.Machine
end

