-- ==== Sys2Proof/Machine/Step.lean ====
section
/-! DEFINITION. One step of SFF, and placing one instruction where the next step takes it. -/

namespace Sys2Proof.Machine

open Sys2Proof

/-- One step. Reset comes first, whatever SFF was doing (spec/70_reset_and_hazards.md R270). While a command is in
progress the command port is not ready and the sequencer steps (spec/10_state.md R33). When idle, the command the host
presents with `valid` high is accepted and given its meaning, a reserved code as IllegalCommand (spec/30_encoding.md
R84); where the host presents none nothing happens (spec/60_exceptions.md R263). -/
def step (s : State) : Host.Outcome State Fault Refusal :=
  if s.pinsNow.rst then .next (assertReset s)
  else if s.busy then sequencerStep s
  else
    match fetch s with
    | none => .next (tick s)
    | some (d, rest) =>
      match decodeDescriptor d with
      | .ok i => exec i (accept d rest s)
      | .error _ => .next (raise .illegalCommand (accept d rest s))

/-- `s` with the instruction whose bits are the low `nbits` bits of `w` presented on the command port before
everything the host still holds, `valid` high, SFF idle and reset not asserted, so that the next step accepts it. It stands for the
host's presenting a command (notes/assumptions/5.md). -/
def State.withFetchWord (s : State) (nbits w : Nat) : State :=
  { s with
    cmdPort := wordBytes nbits w ++ s.cmdPort
    pass := false, phase := .idle, idx := 0, esc := false, rdata := []
    pins := { s.pinsNow with rst := false, valid := true } :: s.pins.tail }

end Sys2Proof.Machine
end

