-- ==== Sys2Proof/Safety.lean ====
section
/-! DEFINITION. What a good state and a good run of SFF are, in the terms the statements use. -/

namespace Sys2Proof.Machine

open Sys2Proof

/-- Between commands: the sequencer at `(0, IDLE, 0)` with ESC clear and no result data gathered
(spec/10_state.md R24, R39). -/
abbrev State.AtRest (s : State) : Prop :=
  s.phase = .idle ∧ s.pass = false ∧ s.idx = 0 ∧ s.esc = false ∧ s.rdata = []

/-- The payload of the packet in progress, `PBUF[0..PLEN-1]` (spec/10_state.md R23). -/
def State.payload (s : State) : List Byte := s.pbuf.take s.plen

/-- The registers' sizes: N counts OPND, PBUF has PMAX entries and PLEN is at most PMAX (R22, R23, R40). -/
abbrev State.SizesOk (s : State) : Prop :=
  s.opnd.length = s.n.toNat ∧ s.pbuf.length = s.par.pmax ∧ s.plen ≤ s.par.pmax

/-- The sequencer's position, as R40 says a reachable state has it; while SFF is idle and while the TX port is the
destination no result data is gathered. -/
abbrev State.PositionOk (s : State) : Prop :=
  (s.phase = .idle → s.AtRest) ∧
  (s.phase = .hdr ∨ s.phase = .trl → s.idx ≤ 4 ∧ s.esc = false) ∧
  (s.phase = .body → s.idx ≤ s.plen + 1 ∧ (s.esc = true → (frameByte s).any needsEscape = true)) ∧
  (s.dest = .txPort → s.rdata = [])

/-- In BODY the checksum accumulator holds the sum modulo 256 of the frame bytes before IDX (R26). -/
abbrev State.CsumOk (s : State) : Prop :=
  s.phase = .body → s.csum = checksum ((packetData s.addr s.payload).take s.idx)

/-- A well-formed state: what R26 and R40 say of every reachable one. -/
abbrev State.Inv (s : State) : Prop := s.SizesOk ∧ s.PositionOk ∧ s.CsumOk

/-- The levels of the input pins `k` steps from now: what `pinsNow` reads after `k` steps. -/
def State.pinsAt (s : State) (k : Nat) : Pins :=
  match s.pins[k]? with
  | some p => p
  | none => ⟨false, Config.freeValid (s.clock + k), Config.freeTxReady (s.clock + k), Config.freeTxErr (s.clock + k)⟩

/-- Reset is not asserted in the next `n` steps. -/
def State.NoResetFor (s : State) (n : Nat) : Prop := ∀ k < n, (s.pinsAt k).rst = false

/-- Neither reset nor tx_err is asserted in the next `n` steps. -/
def State.QuietFor (s : State) (n : Nat) : Prop := ∀ k < n, (s.pinsAt k).rst = false ∧ (s.pinsAt k).txErr = false

/-- In how many of the next `n` steps the channel is ready to take a byte. -/
def State.readyCount (s : State) (n : Nat) : Nat := (List.range n).countP fun k => (s.pinsAt k).txReady

/-- The sequencer takes the step of R155: a command is in progress, reset is not asserted, and the destination takes
a byte (the result port always does; the TX port when tx_ready is high and tx_err is low). -/
abbrev State.CanEmit (s : State) : Prop :=
  s.busy = true ∧ s.pinsNow.rst = false ∧
  (s.dest = .resultPort ∨ s.dest = .txPort ∧ s.pinsNow.txErr = false ∧ s.pinsNow.txReady = true)

/-- `s` with what the acceptance of a packet command leaves in ADDR, PBUF, PLEN, DEST and CSUM
(spec/10_state.md R22, R23, R26, R27, spec/41_packet_codec.md R156). -/
def State.loaded (s : State) (dest : Dest) (a : Byte) (p : List Byte) : State :=
  { s with addr := a, pbuf := p ++ s.pbuf.drop p.length, plen := p.length, dest := dest, csum := 0 }

/-- The statuses an operation can end with: the rows of the table of spec/60_exceptions.md R238. -/
def allowedStatuses : Instr → List Status
  | .lookup _ _ => [.ok, .invalidInput, .unsupportedCharacter]
  | .encode _ _ => [.ok, .illegalCommand]
  | .send _ _ => [.ok, .transportError, .illegalCommand]
  | .wrseg _ _ => [.ok, .outOfRange, .transportError, .illegalCommand]
  | .wrdig _ _ => [.ok, .outOfRange, .transportError, .illegalCommand]
  | .wrstr _ _ => [.ok, .invalidInput, .unsupportedCharacter, .transportError]
  | .seg3 _ _ => [.illegalCommand]

/-- `n` steps of the machine. -/
abbrev run (n : Nat) (s : State) : Host.Outcome State Fault Refusal := Sys2Proof.core.run n s

end Sys2Proof.Machine
end

