-- ==== Sys2Proof/Certificates/Slice0/Obligations.lean ====
section
/-! DEFINITION. The statements about the model, from the numbered rules of spec/. -/

open Sys2Proof Sys2Proof.Machine

/-! ## The descriptor (spec/30_encoding.md) -/

/-- R81, R82: reading the bytes of any command the port can carry gives that command, with every operand at every value,
and leaves the bytes after it. -/
def Obligations.DecodeOfEncodeIsTheCommand : Prop :=
  ∀ (i : Instr) (rest : List Byte), i.wf = true → decode (encode i ++ rest) = .ok (i, rest)

/-- R81, R82: a command that is read is one the port can carry, and its bytes are the ones read: no byte of a descriptor
is dropped and each command has one encoding. -/
def Obligations.EncodeOfDecodeIsTheBytes : Prop :=
  ∀ (bytes : List Byte) (i : Instr) (rest : List Byte),
    decode bytes = .ok (i, rest) → i.wf = true ∧ encode i ++ rest = bytes

/-- Descriptors written out in spec/95_test_vectors.md (D-F9, S1a, D-T1, D-W1, D-W16, D-W23, D-E3). That the one with
code AE decodes to the row SEG3 is the model's choice (notes/assumptions/9.md): R84 says that AE names no operation. -/
def Obligations.WrittenDescriptorsDecode : Prop :=
  decode [0x00, 0xFF, 0x01, 0x37] = .ok (.lookup 0xFF [0x37], []) ∧
  decode [0x01, 0x01, 0x05, 0xAE, 0x00, 0x00, 0x00, 0x00] = .ok (.encode 0x01 [0xAE, 0x00, 0x00, 0x00, 0x00], []) ∧
  decode [0x02, 0x01, 0x01, 0x01] = .ok (.send 0x01 [0x01], []) ∧
  decode [0x03, 0x05, 0x03, 0x01, 0x02, 0x04] = .ok (.wrseg 0x05 [0x01, 0x02, 0x04], []) ∧
  decode [0x04, 0x02, 0x03, 0x01, 0x02, 0x03] = .ok (.wrdig 0x02 [0x01, 0x02, 0x03], []) ∧
  decode [0x05, 0x01, 0x02, 0x48, 0x69] = .ok (.wrstr 0x01 [0x48, 0x69], []) ∧
  decode [0xAE, 0x01, 0x05, 0xAE, 0x00, 0x00, 0x00, 0x00] = .ok (.seg3 0x01 [0xAE, 0x00, 0x00, 0x00, 0x00], [])

/-! ## The segment font and the operand forms (spec/20_memory.md, spec/30_encoding.md, spec/40_segment_font.md) -/

/-- R52: the index map, class by class over all 256 codes. -/
def Obligations.FontIndexMap : Prop :=
  ∀ c : Byte, (fidx c).map Fin.val =
    if c = 0x20 then some 0
    else if 0x30 ≤ c ∧ c ≤ 0x39 then some (c.toNat - 0x30 + 1)
    else if 0x41 ≤ c ∧ c ≤ 0x5A then some (c.toNat - 0x41 + 11)
    else if 0x61 ≤ c ∧ c ≤ 0x7A then some (c.toNat - 0x61 + 11)
    else none

/-- R124: 63 codes are supported and 193 are not. -/
def Obligations.SixtyThreeSupportedCodes : Prop :=
  ((List.range 256).countP fun k => (fidx (BitVec.ofNat 8 k)).isSome) = 63 ∧
  ((List.range 256).countP fun k => (fidx (BitVec.ofNat 8 k)).isNone) = 193

/-- R100: the character of a valid digit is '0'..'9' or 'A'..'E', and it selects the entry after the digit. -/
def Obligations.DigitSelectsTheNextFontEntry : Prop :=
  ∀ d : Byte, d.toNat ≤ 14 →
    (hexchar d).toNat = (if d.toNat ≤ 9 then 0x30 + d.toNat else 0x41 + (d.toNat - 10)) ∧
    (fidx (hexchar d)).map Fin.val = some (d.toNat + 1)

/-- R58, the spec's own reading D3 (notes/assumptions/16.md): bit 0 of a mask lights segment A, and so on in order to bit
6 and segment G; the seven segments are the seven bits, and two masks are the same exactly when they light the same
segments. -/
def Obligations.MaskIsItsLitSegments : Prop :=
  (∀ m : SegmentMask,
    lit m .a = m.getLsbD 0 ∧ lit m .b = m.getLsbD 1 ∧ lit m .c = m.getLsbD 2 ∧ lit m .d = m.getLsbD 3 ∧
    lit m .e = m.getLsbD 4 ∧ lit m .f = m.getLsbD 5 ∧ lit m .g = m.getLsbD 6) ∧
  (∀ m m' : SegmentMask, m = m' ↔ ∀ seg, lit m seg = lit m' seg) ∧
  (∀ k : Fin 7, ∃ seg, segmentBit seg = k.val)

/-- R57, R96: the SEG3 payload holds right, middle, left in that order, and a display that reads the table of R96 gets
the three masks back. -/
def Obligations.Seg3PayloadReadsBack : Prop :=
  ∀ l m r : SegmentMask,
    seg3Payload (zext8 l) (zext8 m) (zext8 r) = [0xAE, zext8 r, zext8 m, zext8 l, 0x00] ∧
    seg3Cells (seg3Payload (zext8 l) (zext8 m) (zext8 r)) = some (l, m, r)

/-! ## The function `encode` (spec/41_packet_codec.md) -/

/-- R149: the byte of the frame after the data is the sum of the address and the payload modulo 256. -/
def Obligations.ChecksumIsTheSumModulo256 : Prop :=
  ∀ (a : Byte) (p : List Byte),
    ((frame a p)[p.length + 1]?).map BitVec.toNat = some ((a.toNat + byteSum p) % 256)

/-- R150: the reference unstuffer inverts the stuffing on every list; between the sentinels of a wrapped sequence it gives
back data and checksum; it takes a list apart row by row as the rule's block says, and a pair other than FE 00 and FE 01,
a last FE and a bare FF are malformed. -/
def Obligations.UnstuffInvertsStuff : Prop :=
  (∀ f : List Byte, unstuff (stuff f) = some f) ∧
  (∀ (a : Byte) (p : List Byte),
    unstuff (((wrapped a p).drop 5).take ((wrapped a p).length - 10)) = some (a :: p ++ [checksum (a :: p)])) ∧
  unstuff [] = some [] ∧
  (∀ rest : List Byte, unstuff (0xFE :: 0x00 :: rest) = (unstuff rest).map (0xFE :: ·)) ∧
  (∀ rest : List Byte, unstuff (0xFE :: 0x01 :: rest) = (unstuff rest).map (0xFF :: ·)) ∧
  (∀ (x : Byte) (rest : List Byte), 0x02 ≤ x → unstuff (0xFE :: x :: rest) = none) ∧
  unstuff [0xFE] = none ∧
  (∀ rest : List Byte, unstuff (0xFF :: rest) = none) ∧
  (∀ (b : Byte) (rest : List Byte), b ≤ 0xFD → unstuff (b :: rest) = (unstuff rest).map (b :: ·))

/-- R151: the packet is its own first half twice, and the half is the wrapped sequence. -/
def Obligations.PacketIsItsHalfTwice : Prop :=
  ∀ (a : Byte) (p : List Byte),
    (encodePacket a p).length % 2 = 0 ∧
    (encodePacket a p).take ((encodePacket a p).length / 2) = wrapped a p ∧
    (encodePacket a p).drop ((encodePacket a p).length / 2) = wrapped a p

/-- R152: in the body FF never stands and FE stands only before 00 or 01; the fixed FF positions of a wrapped
sequence; the first FF at or after offset 5 is the first byte of the trailer. -/
def Obligations.WhereDelimiterAndEscapeStand : Prop :=
  ∀ (a : Byte) (p : List Byte),
    (∀ b ∈ escapedBody a p, b ≠ 0xFF) ∧
    (∀ k : Nat, (escapedBody a p)[k]? = some 0xFE →
      ((escapedBody a p)[k + 1]? = some 0x00 ∨ (escapedBody a p)[k + 1]? = some 0x01) ∧
      (k = 0 ∨ (escapedBody a p)[k - 1]? ≠ some 0xFE)) ∧
    (∀ k ∈ ([0, 3, 4] : List Nat), (wrapped a p)[k]? = some 0xFF) ∧
    (∀ k ∈ ([1, 4, 5] : List Nat), (wrapped a p)[(wrapped a p).length - k]? = some 0xFF) ∧
    (∀ k : Nat, 5 ≤ k → k < 5 + (escapedBody a p).length → (wrapped a p)[k]? ≠ some 0xFF) ∧
    (wrapped a p)[5 + (escapedBody a p).length]? = some 0xFF

/-- R153: the lengths of the body, of the wrapped sequence and of the packet, `e` the count of frame bytes FE or FF. -/
def Obligations.PacketLengths : Prop :=
  ∀ (a : Byte) (p : List Byte),
    (escapedBody a p).length = p.length + 2 + (frame a p).countP (fun b => decide (b = 0xFE ∨ b = 0xFF)) ∧
    (wrapped a p).length = p.length + 12 + (frame a p).countP (fun b => decide (b = 0xFE ∨ b = 0xFF)) ∧
    (encodePacket a p).length = 2 * (p.length + 12 + (frame a p).countP (fun b => decide (b = 0xFE ∨ b = 0xFF)))

/-- R94, the bounds: no packet is shorter than 24 bytes or longer than `4 * PMAX + 28`; a SEG3 packet has 34 to 38
bytes; the longest packet of 32 payload bytes has 154. -/
def Obligations.PacketLengthBounds : Prop :=
  (∀ (a : Byte) (p : List Byte), 24 ≤ (encodePacket a p).length) ∧
  (encodePacket 0x00 []).length = 24 ∧
  (∀ (par : Params) (a : Byte) (p : List Byte), p.length ≤ par.pmax → (encodePacket a p).length ≤ 4 * par.pmax + 28) ∧
  (∀ (a : Byte) (l m r : SegmentMask),
    34 ≤ (encodePacket a (seg3Payload (zext8 l) (zext8 m) (zext8 r))).length ∧
    (encodePacket a (seg3Payload (zext8 l) (zext8 m) (zext8 r))).length ≤ 38) ∧
  (∀ (a : Byte) (p : List Byte), p.length = 32 → (encodePacket a p).length ≤ 154) ∧
  (encodePacket 0xFF (List.replicate 32 0xFF)).length = 154

/-- R154, the consequence the spec derives: stuffing leaves the sum modulo 256 of a byte list unchanged, so the checksum
of the stuffed data would be the same. -/
def Obligations.StuffingKeepsTheSum : Prop :=
  ∀ f : List Byte, byteSum (stuff f) % 256 = byteSum f % 256 ∧ checksum (stuff f) = checksum f

/-- R150, a consequence: a packet determines the address and the payload it was built from, since the body gives the
frame back. (Different commands may build the same address and payload, as R104 and R208 say.) -/
def Obligations.PacketDeterminesAddressAndPayload : Prop :=
  ∀ (a b : Byte) (p q : List Byte), encodePacket a p = encodePacket b q → a = b ∧ p = q

/-- R87, R88, R93: the packet begins with the header and ends with the trailer, the address raw in both, and the
trailer is the header reversed. -/
def Obligations.SentinelsCarryTheBareAddress : Prop :=
  ∀ (a : Byte) (p : List Byte),
    (wrapped a p).take 5 = [0xFF, a, a, 0xFF, 0xFF] ∧
    (wrapped a p).drop ((wrapped a p).length - 5) = [0xFF, 0xFF, a, a, 0xFF] ∧
    ([0xFF, 0xFF, a, a, 0xFF] : List Byte) = ([0xFF, a, a, 0xFF, 0xFF] : List Byte).reverse

/-! ## What each command does (spec/40_segment_font.md to spec/43_display_driver.md) -/

/-- R120, R121, R122, R126: LOOKUP of one supported character answers OK with the font's mask, bit 7 clear, and
changes nothing but the result port; space gives 00, a lower-case letter what its upper-case one gives. -/
def Obligations.LookupAnswersTheMask : Prop :=
  (∀ (s : State) (a c : Byte) (k : Fin 37), s.AtRest → fidx c = some k →
    exec (.lookup a [c]) s = .next { s with result := some ⟨.ok, [zext8 (fontRead s.par k)]⟩ } ∧
    (zext8 (fontRead s.par k)).toNat ≤ 0x7F) ∧
  (∀ (s : State) (a : Byte), s.AtRest →
    exec (.lookup a [0x20]) s = .next { s with result := some ⟨.ok, [0x00]⟩ }) ∧
  (∀ (s : State) (a b c : Byte), 0x61 ≤ c → c ≤ 0x7A → exec (.lookup a [c]) s = exec (.lookup b [c - 0x20]) s)

/-- R124, R125: LOOKUP of an unsupported character ends with UnsupportedCharacter, LOOKUP of any count but one with
InvalidInput whatever the characters; nothing changes but the result port. -/
def Obligations.LookupErrors : Prop :=
  (∀ (s : State) (a c : Byte), s.AtRest → fidx c = none →
    exec (.lookup a [c]) s = .next { s with result := some ⟨.unsupportedCharacter, []⟩ }) ∧
  (∀ (s : State) (a : Byte) (o : List Byte), s.AtRest → o.length ≠ 1 →
    exec (.lookup a o) s = .next { s with result := some ⟨.invalidInput, []⟩ })

/-- R148 at the transaction level: ENCODE answers the packet as result data and leaves `tx` as it was; of the
registers only those acceptance loads change, which at this level is the model's choice (notes/assumptions/11.md). -/
def Obligations.EncodeAnswersThePacket : Prop :=
  ∀ (s : State) (a : Byte) (p : List Byte), s.AtRest → s.level = .transaction → p.length ≤ s.par.pmax →
    exec (.encode a p) s =
      .next { s.loaded .resultPort a p with result := some ⟨.ok, encodePacket a p⟩ }

/-- R181, R182 at the transaction level, no channel failure: SEND appends the whole packet to `tx` and answers OK with
no data; of the registers only those acceptance loads change, the model's choice (notes/assumptions/11.md). -/
def Obligations.SendAppendsThePacket : Prop :=
  ∀ (s : State) (a : Byte) (p : List Byte), s.AtRest → s.level = .transaction → p.length ≤ s.par.pmax →
    s.drawNow = none →
    exec (.send a p) s =
      .next { s.loaded .txPort a p with
        tx := s.tx ++ encodePacket a p, result := some ⟨.ok, []⟩, draws := s.draws.tail }

/-- R183 at the transaction level: when the channel fails after `k` bytes SEND appends the first `k` bytes of the packet
and answers TransportError (the loaded registers: notes/assumptions/11.md). -/
def Obligations.SendFailsWithAPrefix : Prop :=
  ∀ (s : State) (a : Byte) (p : List Byte) (k : Nat), s.AtRest → s.level = .transaction →
    p.length ≤ s.par.pmax → s.drawNow = some k → k ≤ (encodePacket a p).length →
    exec (.send a p) s =
      .next { s.loaded .txPort a p with
        tx := s.tx ++ (encodePacket a p).take k, result := some ⟨.transportError, []⟩, draws := s.draws.tail }

/-- R201 at the transaction level, no channel failure: WRSEG of three masks up to 7F appends the packet of
`AE right middle left 00` and answers OK (the loaded registers: notes/assumptions/11.md). -/
def Obligations.WrsegSendsTheMasks : Prop :=
  ∀ (s : State) (a l m r : Byte), s.AtRest → s.level = .transaction → s.drawNow = none →
    l.toNat ≤ 0x7F → m.toNat ≤ 0x7F → r.toNat ≤ 0x7F →
    exec (.wrseg a [l, m, r]) s =
      .next { s.loaded .txPort a [0xAE, r, m, l, 0x00] with
        tx := s.tx ++ encodePacket a [0xAE, r, m, l, 0x00], result := some ⟨.ok, []⟩, draws := s.draws.tail }

/-- R202 at the transaction level, no channel failure: WRDIG of three digits up to 14 appends the packet of the masks
FONT[digit + 1], the right cell's first, and answers OK (the loaded registers: notes/assumptions/11.md). -/
def Obligations.WrdigSendsTheDigits : Prop :=
  ∀ (s : State) (a : Byte) (l m r : Fin 15), s.AtRest → s.level = .transaction → s.drawNow = none →
    let glyph (d : Fin 15) : Byte := zext8 (fontRead s.par ⟨d.val + 1, by omega⟩)
    let p : List Byte := [0xAE, glyph r, glyph m, glyph l, 0x00]
    exec (.wrdig a [BitVec.ofNat 8 l, BitVec.ofNat 8 m, BitVec.ofNat 8 r]) s =
      .next { s.loaded .txPort a p with
        tx := s.tx ++ encodePacket a p, result := some ⟨.ok, []⟩, draws := s.draws.tail }

/-- R203 at the transaction level, no channel failure: WRSTR of at most three supported characters pads them on the right
with spaces to three and appends the packet of their masks, the right cell's first (the loaded registers:
notes/assumptions/11.md). -/
def Obligations.WrstrSendsTheString : Prop :=
  ∀ (s : State) (a : Byte) (o : List Byte) (cl cm cr : Byte) (kl km kr : Fin 37),
    s.AtRest → s.level = .transaction → s.drawNow = none →
    o.length ≤ 3 → o ++ List.replicate (3 - o.length) 0x20 = [cl, cm, cr] →
    fidx cl = some kl → fidx cm = some km → fidx cr = some kr →
    let p : List Byte :=
      [0xAE, zext8 (fontRead s.par kr), zext8 (fontRead s.par km), zext8 (fontRead s.par kl), 0x00]
    exec (.wrstr a o) s =
      .next { s.loaded .txPort a p with
        tx := s.tx ++ encodePacket a p, result := some ⟨.ok, []⟩, draws := s.draws.tail }

/-- R84, R85 (a), spec/95_test_vectors.md D-E3; that the row SEG3 is read as a descriptor is the model's choice
(notes/assumptions/9.md): 0xAE on the command port is accepted and ends with IllegalCommand, and nothing changes but
the result port. -/
def Obligations.Seg3OnThePortIsIllegal : Prop :=
  ∀ (s : State) (a : Byte) (o : List Byte), s.AtRest →
    exec (.seg3 a o) s = .next { s with result := some ⟨.illegalCommand, []⟩ }

/-- R85: every command of another shape than its operation admits is refused whatever its operand values: LOOKUP and
WRSTR with InvalidInput, the others with IllegalCommand; nothing changes but the result port. -/
def Obligations.MalformedDescriptorsAreRefused : Prop :=
  ∀ (s : State) (i : Instr), s.AtRest → i.wellShaped s.par.pmax = false →
    let status : Status :=
      match i with
      | .lookup _ _ => .invalidInput
      | .wrstr _ _ => .invalidInput
      | .encode _ _ => .illegalCommand
      | .send _ _ => .illegalCommand
      | .wrseg _ _ => .illegalCommand
      | .wrdig _ _ => .illegalCommand
      | .seg3 _ _ => .illegalCommand
    exec i s = .next { s with result := some ⟨status, []⟩ }

/-- R233: OutOfRange is the end of a WRSEG with a mask of 80 or more and of a WRDIG with a digit of 0F or more in any
of the three cells; nothing changes but the result port, and no command ends so otherwise at the transaction level. -/
def Obligations.OutOfRangeExactly : Prop :=
  (∀ (s : State) (a l m r : Byte), s.AtRest → (0x80 ≤ l.toNat ∨ 0x80 ≤ m.toNat ∨ 0x80 ≤ r.toNat) →
    exec (.wrseg a [l, m, r]) s = .next { s with result := some ⟨.outOfRange, []⟩ }) ∧
  (∀ (s : State) (a l m r : Byte), s.AtRest → (0x0F ≤ l.toNat ∨ 0x0F ≤ m.toNat ∨ 0x0F ≤ r.toNat) →
    exec (.wrdig a [l, m, r]) s = .next { s with result := some ⟨.outOfRange, []⟩ }) ∧
  (∀ (s t : State) (i : Instr) (data : List Byte), s.level = .transaction → exec i s = .next t →
    t.result = some ⟨.outOfRange, data⟩ →
    (∃ a l m r, i = .wrseg a [l, m, r] ∧ (0x80 ≤ l.toNat ∨ 0x80 ≤ m.toNat ∨ 0x80 ≤ r.toNat)) ∨
    (∃ a l m r, i = .wrdig a [l, m, r] ∧ (0x0F ≤ l.toNat ∨ 0x0F ≤ m.toNat ∨ 0x0F ≤ r.toNat)))

/-- R234 for WRSTR, R246: a string of at most three characters with an unsupported one ends with UnsupportedCharacter;
nothing changes but the result port. (A longer one ends with InvalidInput: MalformedDescriptorsAreRefused.) -/
def Obligations.UnsupportedStringIsRefused : Prop :=
  ∀ (s : State) (a c : Byte) (o : List Byte), s.AtRest → o.length ≤ 3 → c ∈ o → fidx c = none →
    exec (.wrstr a o) s = .next { s with result := some ⟨.unsupportedCharacter, []⟩ }

/-- R104, R208: at either level and under any channel, WRSEG of valid masks is SEND of the reversed payload, WRDIG of
valid digits is WRSEG of FONT[digit + 1], and WRSTR of supported characters is WRSEG of their masks. -/
def Obligations.DriverCommandsExpand : Prop :=
  (∀ (s : State) (a l m r : Byte), l.toNat ≤ 0x7F → m.toNat ≤ 0x7F → r.toNat ≤ 0x7F →
    exec (.wrseg a [l, m, r]) s = exec (.send a [0xAE, r, m, l, 0x00]) s) ∧
  (∀ (s : State) (a : Byte) (l m r : Fin 15),
    let glyph (d : Fin 15) : Byte := zext8 (fontRead s.par ⟨d.val + 1, by omega⟩)
    exec (.wrdig a [BitVec.ofNat 8 l, BitVec.ofNat 8 m, BitVec.ofNat 8 r]) s =
      exec (.wrseg a [glyph l, glyph m, glyph r]) s ∧
    exec (.wrdig a [BitVec.ofNat 8 l, BitVec.ofNat 8 m, BitVec.ofNat 8 r]) s =
      exec (.wrstr a [hexchar (BitVec.ofNat 8 l), hexchar (BitVec.ofNat 8 m), hexchar (BitVec.ofNat 8 r)]) s) ∧
  (∀ (s : State) (a : Byte) (o : List Byte) (cl cm cr : Byte) (kl km kr : Fin 37),
    o.length ≤ 3 → o ++ List.replicate (3 - o.length) 0x20 = [cl, cm, cr] →
    fidx cl = some kl → fidx cm = some km → fidx cr = some kr →
    exec (.wrstr a o) s =
      exec (.wrseg a [zext8 (fontRead s.par kl), zext8 (fontRead s.par km), zext8 (fontRead s.par kr)]) s)

/-- R101, R203, R102: a short string is the string padded with spaces, and a string's lower-case letters count as
upper-case ones. -/
def Obligations.StringsPadAndFold : Prop :=
  (∀ (s : State) (a : Byte) (o : List Byte), o.length ≤ 3 →
    exec (.wrstr a o) s = exec (.wrstr a (o ++ List.replicate (3 - o.length) 0x20)) s) ∧
  (∀ (s : State) (a : Byte) (o : List Byte),
    exec (.wrstr a o) s = exec (.wrstr a (o.map fun c => if 0x61 ≤ c ∧ c ≤ 0x7A then c - 0x20 else c)) s)

/-- R230, R238: at the transaction level every command ends with exactly one result, its status in the operation's row of
the table, with data only from LOOKUP and ENCODE with status OK (R34), and SFF ready for the next. -/
def Obligations.EveryCommandEndsWithAStatusOfItsRow : Prop :=
  ∀ (i : Instr) (s : State), s.level = .transaction → s.phase = .idle →
    ∃ (t : State) (r : Result), exec i s = .next t ∧ t.result = some r ∧ r.status ∈ allowedStatuses i ∧
      t.ready = true ∧
      (r.data ≠ [] → r.status = .ok ∧ ((∃ a o, i = .lookup a o) ∨ (∃ a o, i = .encode a o)))

/-- R231, R24, R27: the numeric codes of the statuses, of which 6 and 7 are none, of the phases and of the destinations. -/
def Obligations.NumericCodes : Prop :=
  ([.ok, .invalidInput, .outOfRange, .unsupportedCharacter, .transportError, .illegalCommand] : List Status).map
    Status.code = [0, 1, 2, 3, 4, 5] ∧
  (∀ k : Status, k.code ≠ 6 ∧ k.code ≠ 7) ∧
  ([.idle, .hdr, .body, .trl] : List Phase).map Phase.code = [0, 1, 2, 3] ∧
  ([.txPort, .resultPort] : List Dest).map Dest.code = [0, 1]

/-- R241: after any status but OK and TransportError `tx` is unchanged; so are the registers a packet would load and the
draws. -/
def Obligations.ValidationFailureSendsNothing : Prop :=
  ∀ (i : Instr) (s t : State) (r : Result), s.level = .transaction → s.AtRest → exec i s = .next t →
    t.result = some r → r.status ≠ .ok → r.status ≠ .transportError →
    t = { s with result := some ⟨r.status, []⟩ }

/-- R236: at the transaction level TransportError is the end of a transmitting command whose draw is a failure, and of
nothing else; what `tx` then gains is a prefix of one packet. -/
def Obligations.TransportErrorExactly : Prop :=
  ∀ (i : Instr) (s t : State) (data : List Byte), s.level = .transaction → exec i s = .next t →
    t.result = some ⟨.transportError, data⟩ →
    data = [] ∧
    (∃ a o, i = .send a o ∨ i = .wrseg a o ∨ i = .wrdig a o ∨ i = .wrstr a o) ∧
    ∃ k p, s.drawNow = some k ∧ p.length ≤ s.par.pmax ∧ t.tx = s.tx ++ (encodePacket i.addr p).take k

/-- R39, R127, R147: at the transaction level what a command answers and what it appends to `tx` depend on the command,
FONT, PMAX and the channel's answer only, on nothing an earlier command left. -/
def Obligations.NothingPassesBetweenCommands : Prop :=
  ∀ (i : Instr) (s u : State), s.level = .transaction → u.level = .transaction → s.par = u.par →
    s.drawNow = u.drawNow →
    ∃ (s' u' : State) (sent : List Byte), exec i s = .next s' ∧ exec i u = .next u' ∧
      s'.result = u'.result ∧ s'.tx = s.tx ++ sent ∧ u'.tx = u.tx ++ sent

/-- R156: at the byte level ENCODE and SEND that pass their check start the sequencer before the first header byte and
emit nothing in the acceptance step; DEST is the result port for ENCODE and the TX port for SEND. (The driver
commands start as the SEND they expand to: DriverCommandsExpand.) -/
def Obligations.AcceptanceStartsTheSequencer : Prop :=
  (∀ (s : State) (a : Byte) (p : List Byte), s.AtRest → s.level = .byte → p.length ≤ s.par.pmax →
    exec (.encode a p) s = .next { s.loaded .resultPort a p with phase := .hdr }) ∧
  (∀ (s : State) (a : Byte) (p : List Byte), s.AtRest → s.level = .byte → p.length ≤ s.par.pmax →
    exec (.send a p) s = .next { s.loaded .txPort a p with phase := .hdr })

/-! ## The step (spec/10_state.md, spec/41_packet_codec.md section 4, spec/70_reset_and_hazards.md) -/

/-- A step runs the decoded command (R33, R22): when SFF is idle and not in reset, `valid` is high and the bytes on the
command port decode to `i`, the step is `exec i` on the state in which the descriptor has left the port and stands in OPC, ADDR, N
and OPND, the step's pin levels are past and the last result is gone. -/
def Obligations.StepRunsTheDecodedCommand : Prop :=
  ∀ (s : State) (i : Instr) (rest : List Byte), s.phase = .idle → s.pinsNow.rst = false → s.pinsNow.valid = true →
    decode s.cmdPort = .ok (i, rest) →
    step s = exec i { s with
      cmdPort := rest, opc := opcodeOf i, addr := i.addr, n := BitVec.ofNat 8 i.opnd.length, opnd := i.opnd,
      pins := s.pins.tail, clock := s.clock + 1, result := none }

/-- R84: a descriptor whose code is 06 or more, presented with `valid` high, is accepted from the port, has no effect on `tx` and completes with
IllegalCommand. -/
def Obligations.ReservedCodesAreIllegal : Prop :=
  ∀ (s : State) (opc a : Byte) (o rest : List Byte), s.AtRest → s.pinsNow.rst = false →
    s.pinsNow.valid = true → o.length ≤ 255 → 0x06 ≤ opc.toNat →
    s.cmdPort = opc :: a :: BitVec.ofNat 8 o.length :: (o ++ rest) →
    step s = .next { s with
      cmdPort := rest, opc := opc, addr := a, n := BitVec.ofNat 8 o.length, opnd := o,
      pins := s.pins.tail, clock := s.clock + 1, result := some ⟨.illegalCommand, []⟩ }

/-- R33, R263: while idle with `valid` low no transfer happens, whatever stands on the command port: nothing happens but
the passing of the inputs, the host's bytes stay, and no result is produced. The same with `valid` high where no whole
descriptor stands on the port, which is the model's reading (notes/assumptions/5.md). -/
def Obligations.IdleWithoutACommand : Prop :=
  ∀ (s : State), s.phase = .idle → s.pinsNow.rst = false →
    (s.pinsNow.valid = false ∨ decode s.cmdPort = .error .incomplete) →
    step s = .next { s with pins := s.pins.tail, clock := s.clock + 1, result := none }

/-- R33, R64, R22, R27: `ready` is the complement of BUSY; while a command runs no other is accepted, `valid` high or
low, the host's bytes
stay on the port, and OPC, ADDR, N, OPND, PBUF, PLEN and DEST keep their values. -/
def Obligations.BusyPortAcceptsNothing : Prop :=
  (∀ s : State, s.ready = !s.busy ∧ (s.ready = true ↔ s.phase = .idle)) ∧
  (∀ s t : State, s.busy = true → s.pinsNow.rst = false → step s = .next t →
    t.cmdPort = s.cmdPort ∧ t.opc = s.opc ∧ t.addr = s.addr ∧ t.n = s.n ∧ t.opnd = s.opnd ∧
    t.pbuf = s.pbuf ∧ t.plen = s.plen ∧ t.dest = s.dest)

/-- R155, R183 at the byte level, R247, R36: while a command is in progress, tx_err aborts a transmitting one, whether or
not tx_ready is high; without tx_ready it waits unchanged; otherwise one byte is emitted, and a command whose
destination is the result port heeds neither pin. -/
def Obligations.WhenTheSequencerRuns : Prop :=
  (∀ s : State, s.busy = true → s.pinsNow.rst = false → s.dest = .txPort → s.pinsNow.txErr = true →
    step s = .next { s with
      pass := false, phase := .idle, idx := 0, esc := false, rdata := [],
      result := some ⟨.transportError, []⟩, pins := s.pins.tail, clock := s.clock + 1 }) ∧
  (∀ s : State, s.busy = true → s.pinsNow.rst = false → s.dest = .txPort → s.pinsNow.txErr = false →
    s.pinsNow.txReady = false →
    step s = .next { s with pins := s.pins.tail, clock := s.clock + 1, result := none }) ∧
  (∀ s : State, s.CanEmit → step s = emitByte { s with pins := s.pins.tail, clock := s.clock + 1, result := none })

/-- R36, R35, R33: tx_ready and tx_err are not sampled unless a byte is offered on the TX port, and `valid` not unless
SFF is idle. -/
def Obligations.PinsIgnoredUnlessTransmitting : Prop :=
  ∀ (s : State) (p q : Pins) (rest : List Pins), s.txValid = false → p.rst = false → q.rst = false →
    (s.phase = .idle → p.valid = q.valid) →
    step { s with pins := p :: rest } = step { s with pins := q :: rest }

/-- R54: the frame as a view of ADDR, PBUF and CSUM. -/
def Obligations.FrameView : Prop :=
  ∀ (s : State), s.plen ≤ s.pbuf.length →
    (s.idx = 0 → frameByte s = some s.addr) ∧
    (1 ≤ s.idx → s.idx ≤ s.plen → frameByte s = s.pbuf[s.idx - 1]? ∧ frameByte s ≠ none) ∧
    (s.idx = s.plen + 1 → frameByte s = some s.csum)

/-- R157: a step in HDR emits the header byte at IDX; after the fifth the position is `(BODY, 0)` with CSUM and ESC
clear. -/
def Obligations.HeaderStep : Prop :=
  ∀ (s : State) (b : Byte), s.CanEmit → s.phase = .hdr → [0xFF, s.addr, s.addr, 0xFF, 0xFF][s.idx]? = some b →
    (s.idx = 4 → step s = .next { out b (tick s) with phase := .body, idx := 0, csum := 0, esc := false }) ∧
    (s.idx ≠ 4 → step s = .next { out b (tick s) with idx := s.idx + 1 })

/-- R158: a step in BODY with frame byte `b`: a byte below FE is emitted and the position advances; FE and FF take two
steps, FE with ESC set and then 00 or 01; advancing from a data position adds `b` to CSUM modulo 256, from the
checksum position it goes to TRL. -/
def Obligations.BodyStep : Prop :=
  ∀ (s : State) (b : Byte), s.CanEmit → s.phase = .body → frameByte s = some b →
    let advance (u : State) : State :=
      if s.idx ≤ s.plen then { u with csum := BitVec.ofNat 8 ((s.csum.toNat + b.toNat) % 256), idx := s.idx + 1 }
      else { u with phase := .trl, idx := 0 }
    (s.esc = true → step s = .next (advance { out (if b = 0xFE then 0x00 else 0x01) (tick s) with esc := false })) ∧
    (s.esc = false → 0xFE ≤ b.toNat → step s = .next { out 0xFE (tick s) with esc := true }) ∧
    (s.esc = false → b.toNat < 0xFE → step s = .next (advance (out b (tick s))))

/-- R159, R160: a step in TRL emits the trailer byte at IDX; after the fifth the second copy begins, or after the second
copy the command completes with status OK and the bytes emitted to the result port as data, and SFF is idle. -/
def Obligations.TrailerStep : Prop :=
  ∀ (s : State) (b : Byte), s.CanEmit → s.phase = .trl → [0xFF, 0xFF, s.addr, s.addr, 0xFF][s.idx]? = some b →
    (s.idx < 4 → step s = .next { out b (tick s) with idx := s.idx + 1 }) ∧
    (s.idx = 4 → s.pass = false → step s = .next { out b (tick s) with pass := true, phase := .hdr, idx := 0 }) ∧
    (s.idx = 4 → s.pass = true → step s = .next { out b (tick s) with
      pass := false, phase := .idle, idx := 0, esc := false, rdata := [],
      result := some ⟨.ok, (out b (tick s)).rdata⟩ })

/-- R27, `out(b)` of spec/41_packet_codec.md section 4: an emitted byte goes to `tx` when DEST is the TX port and to the
result data when it is the result port, and nowhere else. -/
def Obligations.EmittedByteGoesWhereDestSays : Prop :=
  ∀ (b : Byte) (s : State),
    (s.dest = .txPort → out b s = { s with tx := s.tx ++ [b] }) ∧
    (s.dest = .resultPort → out b s = { s with rdata := s.rdata ++ [b] })

/-- R270, R271, R272, R273: in a step with the reset input asserted, whatever SFF was doing, no result is produced, `tx`
is empty, the sequencer is idle at its reset values, and FONT and PMAX are untouched. -/
def Obligations.ResetInputClearsTheMachine : Prop :=
  ∀ (s : State), s.pinsNow.rst = true →
    ∃ t : State, step s = .next t ∧ t.tx = [] ∧ t.pass = false ∧ t.phase = .idle ∧ t.idx = 0 ∧ t.esc = false ∧
      t.csum = 0 ∧ t.dest = .txPort ∧ t.plen = 0 ∧ t.result = none ∧ t.ready = true ∧ t.txValid = false ∧
      t.par = s.par

/-- R38, R30: the state after reset at the values the spec gives, and the collaborator's constants. -/
def Obligations.ResetStateHasTheSpecsValues : Prop :=
  State.reset.tx = [] ∧ State.reset.phase = .idle ∧ State.reset.pass = false ∧ State.reset.idx = 0 ∧
  State.reset.esc = false ∧ State.reset.csum = 0 ∧ State.reset.dest = .txPort ∧ State.reset.plen = 0 ∧
  State.reset.busy = false ∧ State.reset.ready = true ∧ State.reset.result = none ∧ State.reset.txValid = false ∧
  fontRead State.reset.par 0 = 0 ∧
  Config.busTiming.baud = 4800 ∧ Config.busTiming.preTransmitMs = 250 ∧ Config.busTiming.postTransmitMs = 250 ∧
  Config.busTiming.readTimeoutMs = 100

/-! ## Invariants of every step -/

/-- R26, R40: every step keeps the well-formedness of the state: the position R40 allows, the checksum accumulator R26
describes, and the registers' sizes. -/
def Obligations.EveryStepKeepsTheInvariant : Prop :=
  ∀ s t : State, s.Inv → step s = .next t → t.Inv

/-- R40, R271: the state after reset is well-formed. -/
def Obligations.ResetStateIsWellFormed : Prop := State.reset.Inv

/-- R14: from a well-formed state a step always has a next state; SFF never halts. -/
def Obligations.WellFormedStatesNeverStop : Prop :=
  ∀ s : State, s.Inv → ∃ t : State, step s = .next t

/-- R20, R55: every step outside reset appends to `tx` and removes or changes no byte of it; at the byte level it appends
at most one. -/
def Obligations.TransmitHistoryOnlyGrows : Prop :=
  ∀ s t : State, s.pinsNow.rst = false → step s = .next t →
    ∃ sent : List Byte, t.tx = s.tx ++ sent ∧ (s.level = .byte → sent.length ≤ 1)

/-- R21, R29, R273: no step writes FONT or PMAX, reset included, nor the model's choice of level (notes/assumptions/1.md). -/
def Obligations.NoStepWritesTheParameters : Prop :=
  ∀ s t : State, step s = .next t → t.par = s.par ∧ t.level = s.level

/-! ## The byte level refines the transaction level (R161) -/

/-- R63, R155, R161, R162: at the byte level, while SEND runs on a channel that reports no error, `tx` has gained exactly
as many bytes of the packet, in order, as there were steps with tx_ready high, and no result is out yet. -/
def Obligations.SendInProgressHasSentAPrefix : Prop :=
  ∀ (s : State) (a : Byte) (p : List Byte) (n : Nat),
    s.AtRest → s.level = .byte → s.SizesOk → s.result = none → p.length ≤ s.par.pmax →
    s.QuietFor n → s.readyCount n < (encodePacket a p).length →
    ∃ t u : State, exec (.send a p) s = .next t ∧ run n t = .next u ∧
      u.tx = s.tx ++ (encodePacket a p).take (s.readyCount n) ∧ u.busy = true ∧ u.result = none ∧
      u.cmdPort = s.cmdPort

/-- R161, R160: at the byte level, with no error reported, the step in which the channel takes the last byte of SEND's
packet leaves exactly the packet of R140 appended to `tx`, the result OK with no data, and SFF idle. -/
def Obligations.SendRefinesTheFunction : Prop :=
  ∀ (s : State) (a : Byte) (p : List Byte) (n : Nat),
    s.AtRest → s.level = .byte → s.SizesOk → p.length ≤ s.par.pmax →
    s.QuietFor (n + 1) → s.readyCount n + 1 = (encodePacket a p).length → (s.pinsAt n).txReady = true →
    ∃ t u : State, exec (.send a p) s = .next t ∧ run (n + 1) t = .next u ∧
      u.tx = s.tx ++ encodePacket a p ∧ u.result = some ⟨.ok, []⟩ ∧ u.AtRest ∧ u.cmdPort = s.cmdPort

/-- R161, R160, R36 for ENCODE: at the byte level, whatever tx_ready and tx_err do, as many steps as the packet has bytes
produce the result OK with the packet of R140 as data, and `tx` is untouched. -/
def Obligations.EncodeRefinesTheFunction : Prop :=
  ∀ (s : State) (a : Byte) (p : List Byte),
    s.AtRest → s.level = .byte → s.SizesOk → p.length ≤ s.par.pmax →
    s.NoResetFor (encodePacket a p).length →
    ∃ t u : State, exec (.encode a p) s = .next t ∧ run (encodePacket a p).length t = .next u ∧
      u.tx = s.tx ∧ u.result = some ⟨.ok, encodePacket a p⟩ ∧ u.AtRest ∧ u.cmdPort = s.cmdPort

/-- R183, R243 at the byte level: an error on tx_err while SEND runs leaves in `tx` the bytes transferred before it, a
prefix of the packet, the result TransportError with no data, and SFF idle; nothing is completed or resent (R184). -/
def Obligations.AbortedSendLeavesAPrefix : Prop :=
  ∀ (s : State) (a : Byte) (p : List Byte) (n : Nat),
    s.AtRest → s.level = .byte → s.SizesOk → p.length ≤ s.par.pmax →
    s.QuietFor n → s.readyCount n < (encodePacket a p).length →
    (s.pinsAt n).rst = false → (s.pinsAt n).txErr = true →
    ∃ t u : State, exec (.send a p) s = .next t ∧ run (n + 1) t = .next u ∧
      u.tx = s.tx ++ (encodePacket a p).take (s.readyCount n) ∧ u.result = some ⟨.transportError, []⟩ ∧ u.AtRest ∧
      u.cmdPort = s.cmdPort

/-- R6, R161: on a channel that is ready and reports no error, every command at the byte level comes, in at most 1048
steps after its acceptance, to the result and the transmit history that one step at the transaction level gives it
under the draw `none`. 1048 is `2 * (255 + 12 + 257)`, the bound of R153 at the greatest PMAX. -/
def Obligations.TheTwoLevelsAgree : Prop :=
  ∀ (i : Instr) (s : State), s.Inv → s.AtRest → s.level = .byte →
    (∀ k < 1048, (s.pinsAt k).rst = false ∧ (s.pinsAt k).txErr = false ∧ (s.pinsAt k).txReady = true) →
    ∃ (v t u : State) (n : Nat),
      exec i { s with level := .transaction, draws := none :: s.draws } = .next v ∧
      exec i s = .next t ∧ n ≤ 1048 ∧ run n t = .next u ∧
      u.tx = v.tx ∧ u.result = v.result ∧ u.AtRest
end

