-- ==== Sys2Proof/Laws/Codec.lean ====
section
/-! SUPPORT. Small lemmas about reading descriptors and about the function `encode`, one list cell at a time. -/

namespace Sys2Proof.Machine

open Sys2Proof

/-- A descriptor whose count is right is split off whole, whatever stands after it. -/
theorem splitDescriptor_append (d : Descriptor) (rest : List Byte) (h : d.n.toNat = d.opnd.length) :
    splitDescriptor (descriptorBytes d ++ rest) = some (d, rest) := by
  simp [splitDescriptor, descriptorBytes, h]

/-- What `splitDescriptor` splits off: a descriptor whose count is right, in front of the rest. -/
theorem splitDescriptor_some (bytes : List Byte) (d : Descriptor) (rest : List Byte)
    (h : splitDescriptor bytes = some (d, rest)) :
    d.opnd.length = d.n.toNat ∧ bytes = descriptorBytes d ++ rest := by
  unfold splitDescriptor at h
  split at h
  · split at h
    · simp only [Option.some.injEq, Prod.mk.injEq] at h
      obtain ⟨rfl, rfl⟩ := h
      simp [descriptorBytes, ‹_ ≤ _›]
    · cases h
  · cases h

@[simp] theorem decodeDescriptor_descriptorOf (i : Instr) : decodeDescriptor (descriptorOf i) = .ok i := by
  cases i <;> rfl

@[simp] theorem byteSum_nil : byteSum [] = 0 := rfl

@[simp] theorem byteSum_cons (b : Byte) (l : List Byte) : byteSum (b :: l) = b.toNat + byteSum l := by
  simp [byteSum]

@[simp] theorem byteSum_append (l m : List Byte) : byteSum (l ++ m) = byteSum l + byteSum m := by
  simp [byteSum]

/-- The accumulation of spec/10_state.md R26: the checksum of one byte more. -/
theorem checksum_concat (l : List Byte) (b : Byte) : checksum (l ++ [b]) = checksum l + b := by
  apply BitVec.eq_of_toNat_eq
  simp [checksum]

@[simp] theorem stuff_nil : stuff [] = [] := rfl

theorem stuff_cons (b : Byte) (f : List Byte) : stuff (b :: f) = stuff1 b ++ stuff f := by
  simp [stuff]

/-- `stuff1`, both cases (spec/30_encoding.md R91). -/
theorem stuff1_cases (b : Byte) :
    ((b = 0xFE ∨ b = 0xFF) ∧ needsEscape b = true ∧ Config.escMarker ≤ b ∧
      stuff1 b = [Config.escMarker, if b = Config.escMarker then Config.escFE else Config.escFF]) ∨
    ((b ≠ 0xFE ∧ b ≠ 0xFF) ∧ needsEscape b = false ∧ ¬Config.escMarker ≤ b ∧ stuff1 b = [b]) := by
  revert b
  decide

@[simp] theorem header_length (a : Byte) : (header a).length = 5 := rfl

@[simp] theorem trailer_length (a : Byte) : (trailer a).length = 5 := rfl

@[simp] theorem frame_length (a : Byte) (p : List Byte) : (frame a p).length = p.length + 2 := by
  simp [frame, packetData]

theorem wrapped_ne_nil (a : Byte) (p : List Byte) : wrapped a p ≠ [] := by
  simp [wrapped, header]

end Sys2Proof.Machine
end

