-- ==== Sys2Proof/Laws/State.lean ====
section
/-! SUPPORT. What each update of the state does to each field, so that no proof unfolds an update. -/

namespace Sys2Proof.Machine

open Sys2Proof

section tick

variable (s : State)

@[simp] theorem tick_level : (tick s).level = s.level := rfl
@[simp] theorem tick_par : (tick s).par = s.par := rfl
@[simp] theorem tick_tx : (tick s).tx = s.tx := rfl
@[simp] theorem tick_opc : (tick s).opc = s.opc := rfl
@[simp] theorem tick_addr : (tick s).addr = s.addr := rfl
@[simp] theorem tick_n : (tick s).n = s.n := rfl
@[simp] theorem tick_opnd : (tick s).opnd = s.opnd := rfl
@[simp] theorem tick_pbuf : (tick s).pbuf = s.pbuf := rfl
@[simp] theorem tick_plen : (tick s).plen = s.plen := rfl
@[simp] theorem tick_pass : (tick s).pass = s.pass := rfl
@[simp] theorem tick_phase : (tick s).phase = s.phase := rfl
@[simp] theorem tick_idx : (tick s).idx = s.idx := rfl
@[simp] theorem tick_esc : (tick s).esc = s.esc := rfl
@[simp] theorem tick_csum : (tick s).csum = s.csum := rfl
@[simp] theorem tick_dest : (tick s).dest = s.dest := rfl
@[simp] theorem tick_rdata : (tick s).rdata = s.rdata := rfl
@[simp] theorem tick_result : (tick s).result = none := rfl
@[simp] theorem tick_cmdPort : (tick s).cmdPort = s.cmdPort := rfl
@[simp] theorem tick_pins : (tick s).pins = s.pins.tail := rfl
@[simp] theorem tick_draws : (tick s).draws = s.draws := rfl
@[simp] theorem tick_clock : (tick s).clock = s.clock + 1 := rfl

end tick

section accept

variable (d : Descriptor) (rest : List Byte) (s : State)

@[simp] theorem accept_level : (accept d rest s).level = s.level := rfl
@[simp] theorem accept_par : (accept d rest s).par = s.par := rfl
@[simp] theorem accept_tx : (accept d rest s).tx = s.tx := rfl
@[simp] theorem accept_opc : (accept d rest s).opc = d.opc := rfl
@[simp] theorem accept_addr : (accept d rest s).addr = d.addr := rfl
@[simp] theorem accept_n : (accept d rest s).n = d.n := rfl
@[simp] theorem accept_opnd : (accept d rest s).opnd = d.opnd := rfl
@[simp] theorem accept_pbuf : (accept d rest s).pbuf = s.pbuf := rfl
@[simp] theorem accept_plen : (accept d rest s).plen = s.plen := rfl
@[simp] theorem accept_pass : (accept d rest s).pass = s.pass := rfl
@[simp] theorem accept_phase : (accept d rest s).phase = s.phase := rfl
@[simp] theorem accept_idx : (accept d rest s).idx = s.idx := rfl
@[simp] theorem accept_esc : (accept d rest s).esc = s.esc := rfl
@[simp] theorem accept_csum : (accept d rest s).csum = s.csum := rfl
@[simp] theorem accept_dest : (accept d rest s).dest = s.dest := rfl
@[simp] theorem accept_rdata : (accept d rest s).rdata = s.rdata := rfl
@[simp] theorem accept_result : (accept d rest s).result = none := rfl
@[simp] theorem accept_cmdPort : (accept d rest s).cmdPort = rest := rfl
@[simp] theorem accept_pins : (accept d rest s).pins = s.pins.tail := rfl
@[simp] theorem accept_draws : (accept d rest s).draws = s.draws := rfl
@[simp] theorem accept_clock : (accept d rest s).clock = s.clock + 1 := rfl

end accept

section txWrite

variable (b : Byte) (s : State)

@[simp] theorem txWrite_level : (txWrite b s).level = s.level := rfl
@[simp] theorem txWrite_par : (txWrite b s).par = s.par := rfl
@[simp] theorem txWrite_tx : (txWrite b s).tx = s.tx ++ [b] := rfl
@[simp] theorem txWrite_opc : (txWrite b s).opc = s.opc := rfl
@[simp] theorem txWrite_addr : (txWrite b s).addr = s.addr := rfl
@[simp] theorem txWrite_n : (txWrite b s).n = s.n := rfl
@[simp] theorem txWrite_opnd : (txWrite b s).opnd = s.opnd := rfl
@[simp] theorem txWrite_pbuf : (txWrite b s).pbuf = s.pbuf := rfl
@[simp] theorem txWrite_plen : (txWrite b s).plen = s.plen := rfl
@[simp] theorem txWrite_pass : (txWrite b s).pass = s.pass := rfl
@[simp] theorem txWrite_phase : (txWrite b s).phase = s.phase := rfl
@[simp] theorem txWrite_idx : (txWrite b s).idx = s.idx := rfl
@[simp] theorem txWrite_esc : (txWrite b s).esc = s.esc := rfl
@[simp] theorem txWrite_csum : (txWrite b s).csum = s.csum := rfl
@[simp] theorem txWrite_dest : (txWrite b s).dest = s.dest := rfl
@[simp] theorem txWrite_rdata : (txWrite b s).rdata = s.rdata := rfl
@[simp] theorem txWrite_result : (txWrite b s).result = s.result := rfl
@[simp] theorem txWrite_cmdPort : (txWrite b s).cmdPort = s.cmdPort := rfl
@[simp] theorem txWrite_pins : (txWrite b s).pins = s.pins := rfl
@[simp] theorem txWrite_draws : (txWrite b s).draws = s.draws := rfl
@[simp] theorem txWrite_clock : (txWrite b s).clock = s.clock := rfl

end txWrite

section finish

variable (k : Status) (l : List Byte) (s : State)

@[simp] theorem finish_level : (finish k l s).level = s.level := rfl
@[simp] theorem finish_par : (finish k l s).par = s.par := rfl
@[simp] theorem finish_tx : (finish k l s).tx = s.tx := rfl
@[simp] theorem finish_opc : (finish k l s).opc = s.opc := rfl
@[simp] theorem finish_addr : (finish k l s).addr = s.addr := rfl
@[simp] theorem finish_n : (finish k l s).n = s.n := rfl
@[simp] theorem finish_opnd : (finish k l s).opnd = s.opnd := rfl
@[simp] theorem finish_pbuf : (finish k l s).pbuf = s.pbuf := rfl
@[simp] theorem finish_plen : (finish k l s).plen = s.plen := rfl
@[simp] theorem finish_pass : (finish k l s).pass = false := rfl
@[simp] theorem finish_phase : (finish k l s).phase = .idle := rfl
@[simp] theorem finish_idx : (finish k l s).idx = 0 := rfl
@[simp] theorem finish_esc : (finish k l s).esc = false := rfl
@[simp] theorem finish_csum : (finish k l s).csum = s.csum := rfl
@[simp] theorem finish_dest : (finish k l s).dest = s.dest := rfl
@[simp] theorem finish_rdata : (finish k l s).rdata = [] := rfl
@[simp] theorem finish_result : (finish k l s).result = some ⟨k, l⟩ := rfl
@[simp] theorem finish_cmdPort : (finish k l s).cmdPort = s.cmdPort := rfl
@[simp] theorem finish_pins : (finish k l s).pins = s.pins := rfl
@[simp] theorem finish_draws : (finish k l s).draws = s.draws := rfl
@[simp] theorem finish_clock : (finish k l s).clock = s.clock := rfl

end finish

section raise

variable (k : Status) (s : State)

@[simp] theorem raise_level : (raise k s).level = s.level := rfl
@[simp] theorem raise_par : (raise k s).par = s.par := rfl
@[simp] theorem raise_tx : (raise k s).tx = s.tx := rfl
@[simp] theorem raise_opc : (raise k s).opc = s.opc := rfl
@[simp] theorem raise_addr : (raise k s).addr = s.addr := rfl
@[simp] theorem raise_n : (raise k s).n = s.n := rfl
@[simp] theorem raise_opnd : (raise k s).opnd = s.opnd := rfl
@[simp] theorem raise_pbuf : (raise k s).pbuf = s.pbuf := rfl
@[simp] theorem raise_plen : (raise k s).plen = s.plen := rfl
@[simp] theorem raise_pass : (raise k s).pass = false := rfl
@[simp] theorem raise_phase : (raise k s).phase = .idle := rfl
@[simp] theorem raise_idx : (raise k s).idx = 0 := rfl
@[simp] theorem raise_esc : (raise k s).esc = false := rfl
@[simp] theorem raise_csum : (raise k s).csum = s.csum := rfl
@[simp] theorem raise_dest : (raise k s).dest = s.dest := rfl
@[simp] theorem raise_rdata : (raise k s).rdata = [] := rfl
@[simp] theorem raise_result : (raise k s).result = some ⟨k, []⟩ := rfl
@[simp] theorem raise_cmdPort : (raise k s).cmdPort = s.cmdPort := rfl
@[simp] theorem raise_pins : (raise k s).pins = s.pins := rfl
@[simp] theorem raise_draws : (raise k s).draws = s.draws := rfl
@[simp] theorem raise_clock : (raise k s).clock = s.clock := rfl

end raise

section startPacket

variable (e : Dest) (a : Byte) (p : List Byte) (s : State)

@[simp] theorem startPacket_level : (startPacket e a p s).level = s.level := rfl
@[simp] theorem startPacket_par : (startPacket e a p s).par = s.par := rfl
@[simp] theorem startPacket_tx : (startPacket e a p s).tx = s.tx := rfl
@[simp] theorem startPacket_opc : (startPacket e a p s).opc = s.opc := rfl
@[simp] theorem startPacket_addr : (startPacket e a p s).addr = a := rfl
@[simp] theorem startPacket_n : (startPacket e a p s).n = s.n := rfl
@[simp] theorem startPacket_opnd : (startPacket e a p s).opnd = s.opnd := rfl
@[simp] theorem startPacket_pbuf : (startPacket e a p s).pbuf = p ++ s.pbuf.drop p.length := rfl
@[simp] theorem startPacket_plen : (startPacket e a p s).plen = p.length := rfl
@[simp] theorem startPacket_pass : (startPacket e a p s).pass = false := rfl
@[simp] theorem startPacket_phase : (startPacket e a p s).phase = .hdr := rfl
@[simp] theorem startPacket_idx : (startPacket e a p s).idx = 0 := rfl
@[simp] theorem startPacket_esc : (startPacket e a p s).esc = false := rfl
@[simp] theorem startPacket_csum : (startPacket e a p s).csum = 0 := rfl
@[simp] theorem startPacket_dest : (startPacket e a p s).dest = e := rfl
@[simp] theorem startPacket_rdata : (startPacket e a p s).rdata = [] := rfl
@[simp] theorem startPacket_result : (startPacket e a p s).result = s.result := rfl
@[simp] theorem startPacket_cmdPort : (startPacket e a p s).cmdPort = s.cmdPort := rfl
@[simp] theorem startPacket_pins : (startPacket e a p s).pins = s.pins := rfl
@[simp] theorem startPacket_draws : (startPacket e a p s).draws = s.draws := rfl
@[simp] theorem startPacket_clock : (startPacket e a p s).clock = s.clock := rfl

end startPacket

section assertReset

variable (s : State)

@[simp] theorem assertReset_level : (assertReset s).level = s.level := rfl
@[simp] theorem assertReset_par : (assertReset s).par = s.par := rfl
@[simp] theorem assertReset_tx : (assertReset s).tx = [] := rfl
@[simp] theorem assertReset_opc : (assertReset s).opc = 0 := rfl
@[simp] theorem assertReset_addr : (assertReset s).addr = 0 := rfl
@[simp] theorem assertReset_n : (assertReset s).n = 0 := rfl
@[simp] theorem assertReset_opnd : (assertReset s).opnd = [] := rfl
@[simp] theorem assertReset_pbuf : (assertReset s).pbuf = List.replicate s.par.pmax 0 := rfl
@[simp] theorem assertReset_plen : (assertReset s).plen = 0 := rfl
@[simp] theorem assertReset_pass : (assertReset s).pass = false := rfl
@[simp] theorem assertReset_phase : (assertReset s).phase = .idle := rfl
@[simp] theorem assertReset_idx : (assertReset s).idx = 0 := rfl
@[simp] theorem assertReset_esc : (assertReset s).esc = false := rfl
@[simp] theorem assertReset_csum : (assertReset s).csum = 0 := rfl
@[simp] theorem assertReset_dest : (assertReset s).dest = .txPort := rfl
@[simp] theorem assertReset_rdata : (assertReset s).rdata = [] := rfl
@[simp] theorem assertReset_result : (assertReset s).result = none := rfl
@[simp] theorem assertReset_cmdPort : (assertReset s).cmdPort = s.cmdPort := rfl
@[simp] theorem assertReset_pins : (assertReset s).pins = s.pins.tail := rfl
@[simp] theorem assertReset_draws : (assertReset s).draws = s.draws := rfl
@[simp] theorem assertReset_clock : (assertReset s).clock = s.clock + 1 := rfl

end assertReset

/-- Writing a list of bytes appends it to `tx` and changes nothing else. -/
theorem txWriteAll_eq (l : List Byte) (s : State) : txWriteAll l s = { s with tx := s.tx ++ l } := by
  induction l generalizing s with
  | nil => simp [txWriteAll]
  | cons b l ih =>
    have h : txWriteAll (b :: l) s = txWriteAll l (txWrite b s) := rfl
    rw [h, ih]
    simp [txWrite]

/-- A raised error writes the position of IDLE and the result, so at rest it writes the result alone. -/
theorem finish_of_idle (k : Status) (l : List Byte) (s : State) (hp : s.pass = false) (hf : s.phase = .idle)
    (hi : s.idx = 0) (he : s.esc = false) (hr : s.rdata = []) :
    finish k l s = { s with result := some ⟨k, l⟩ } := by
  cases s; simp_all [finish]

end Sys2Proof.Machine
end

