-- ==== Sys2Proof/Laws/Ops.lean ====
section
/-! SUPPORT. What each shared operation can do, said once. -/

namespace Sys2Proof.Machine

open Sys2Proof

theorem pmax_ge_five (p : Params) : 5 ≤ p.pmax := Nat.le_add_right _ _

theorem pmax_le_255 (p : Params) : p.pmax ≤ 255 := by
  have := p.pmaxOver5.isLt
  simp only [Params.pmax]
  omega

@[simp] theorem seg3Payload_length (l m r : Byte) : (seg3Payload l m r).length = 5 := rfl

/-- A mask in a byte passes WRSEG's range check (spec/40_segment_font.md R126). -/
@[simp] theorem validMask_zext8 (m : SegmentMask) : validMask (zext8 m) = true := by
  revert m; decide

theorem validMask_iff (b : Byte) : validMask b = true ↔ b.toNat ≤ 0x7F := by
  simp [validMask, Config.maskMax, BitVec.le_def]

theorem validDigit_iff (b : Byte) : validDigit b = true ↔ b.toNat ≤ 14 := by
  simp [validDigit, Config.digitLimit, BitVec.lt_def]
  omega

theorem fidx_hexchar (d : Fin 15) : fidx (hexchar (BitVec.ofNat 8 d.val)) = some ⟨d.val + 1, by omega⟩ := by
  revert d; decide

theorem mask_of_fidx (par : Params) (c : Byte) (k : Fin 37) (h : fidx c = some k) :
    mask par c = some (fontRead par k) := by
  simp [mask, h]

theorem mask_eq_none (par : Params) (c : Byte) : mask par c = none ↔ fidx c = none := by
  unfold mask
  cases fidx c <;> simp

theorem mask_foldCase (par : Params) (c : Byte) : mask par (foldCase c) = mask par c := by
  have h : ∀ c : Byte, fidx (foldCase c) = fidx c := by decide
  simp [mask, h]

/-- `handOver`, both draws: what it adds to `tx` and the result it gives. -/
theorem handOver_eq (pkt : List Byte) (s : State) : handOver pkt s =
    match s.drawNow with
    | none => finish .ok [] { s with tx := s.tx ++ pkt, draws := s.draws.tail }
    | some k => finish .transportError [] { s with tx := s.tx ++ pkt.take k, draws := s.draws.tail } := by
  unfold handOver
  cases s.drawNow <;> simp [txWriteAll_eq, raise]

@[simp] theorem drawNow_startPacket (e : Dest) (a : Byte) (p : List Byte) (s : State) :
    (startPacket e a p s).drawNow = s.drawNow := rfl

/-- `perform SEND`: refused for a payload over PMAX, else transmitted. -/
theorem performSend_cases (a : Byte) (p : List Byte) (s : State) :
    (s.par.pmax < p.length ∧ performSend a p s = raise .illegalCommand s) ∨
    (p.length ≤ s.par.pmax ∧ performSend a p s = transmit a p s) := by
  unfold performSend
  split
  · exact .inl ⟨‹_›, rfl⟩
  · exact .inr ⟨by omega, rfl⟩

/-- `perform SEND` of a SEG3 payload is never refused, since PMAX is at least 5. -/
theorem performSend_seg3 (a l m r : Byte) (s : State) :
    performSend a (seg3Payload l m r) s = transmit a (seg3Payload l m r) s := by
  have h := pmax_ge_five s.par
  rcases performSend_cases a (seg3Payload l m r) s with ⟨hlt, _⟩ | ⟨_, he⟩
  · simp at hlt; omega
  · exact he

/-- `perform WRSEG`: OutOfRange unless all three masks are valid, else the SEG3 payload is transmitted. -/
theorem performWrseg_cases (a l m r : Byte) (s : State) :
    ((0x80 ≤ l.toNat ∨ 0x80 ≤ m.toNat ∨ 0x80 ≤ r.toNat) ∧ performWrseg a l m r s = raise .outOfRange s) ∨
    ((l.toNat ≤ 0x7F ∧ m.toNat ≤ 0x7F ∧ r.toNat ≤ 0x7F) ∧
      performWrseg a l m r s = transmit a (seg3Payload l m r) s) := by
  unfold performWrseg
  split
  · rename_i h
    simp only [Bool.and_eq_true, validMask_iff] at h
    exact .inr ⟨⟨h.1.1, h.1.2, h.2⟩, performSend_seg3 a l m r s⟩
  · rename_i h
    simp only [Bool.and_eq_true, validMask_iff] at h
    exact .inl ⟨by omega, rfl⟩

/-- Characters to masks: UnsupportedCharacter if one has no index, else the SEG3 payload of the masks is transmitted. -/
theorem performChars_cases (a cl cm cr : Byte) (s : State) :
    ((fidx cl = none ∨ fidx cm = none ∨ fidx cr = none) ∧ performChars a cl cm cr s = raise .unsupportedCharacter s) ∨
    (∃ kl km kr, fidx cl = some kl ∧ fidx cm = some km ∧ fidx cr = some kr ∧
      performChars a cl cm cr s =
        transmit a (seg3Payload (zext8 (fontRead s.par kl)) (zext8 (fontRead s.par km)) (zext8 (fontRead s.par kr))) s) := by
  unfold performChars mask
  cases hl : fidx cl with
  | none => exact .inl ⟨.inl rfl, rfl⟩
  | some kl =>
    cases hm : fidx cm with
    | none => exact .inl ⟨.inr (.inl rfl), rfl⟩
    | some km =>
      cases hr : fidx cr with
      | none => exact .inl ⟨.inr (.inr rfl), rfl⟩
      | some kr =>
        refine .inr ⟨kl, km, kr, rfl, rfl, rfl, ?_⟩
        simp only [performWrseg, validMask_zext8, Bool.and_self, if_true]
        exact performSend_seg3 ..

theorem performChars_of_fidx (a cl cm cr : Byte) (s : State) (kl km kr : Fin 37) (hl : fidx cl = some kl)
    (hm : fidx cm = some km) (hr : fidx cr = some kr) :
    performChars a cl cm cr s =
      transmit a (seg3Payload (zext8 (fontRead s.par kl)) (zext8 (fontRead s.par km)) (zext8 (fontRead s.par kr))) s := by
  rcases performChars_cases a cl cm cr s with ⟨h, _⟩ | ⟨kl', km', kr', hl', hm', hr', h⟩
  · simp [hl, hm, hr] at h
  · simp only [hl, hm, hr, Option.some.injEq] at hl' hm' hr'
    subst hl' hm' hr'
    exact h

/-- What a command can do: end at once with a result of its own, transmit one packet, or return one. -/
theorem exec_cases (i : Instr) (s : State) : ∃ t, exec i s = .next t ∧
    ((∃ k l, k ≠ .transportError ∧ (l ≠ [] → k = .ok ∧ ∃ a o, i = .lookup a o) ∧
        (k = .ok → ∃ a o, i = .lookup a o) ∧
        k ∈ [.ok, .invalidInput, .outOfRange, .unsupportedCharacter, .illegalCommand] ∧
        t = finish k l s) ∨
      (∃ p, p.length ≤ s.par.pmax ∧ t = transmit i.addr p s ∧
        ∃ a o, i = .send a o ∨ i = .wrseg a o ∨ i = .wrdig a o ∨ i = .wrstr a o) ∨
      (∃ p, p.length ≤ s.par.pmax ∧ t = returnPacket i.addr p s ∧ i = .encode i.addr p)) := by
  cases i with
  | lookup a o =>
    simp only [exec, execLookup]
    split
    · split
      · exact ⟨_, rfl, .inl ⟨_, _, by decide, by simp, by simp, by simp, rfl⟩⟩
      · exact ⟨_, rfl, .inl ⟨_, _, by decide, by simp, by simp, by simp, rfl⟩⟩
    · exact ⟨_, rfl, .inl ⟨_, _, by decide, by simp, by simp, by simp, rfl⟩⟩
  | encode a o =>
    simp only [exec, execEncode]
    split
    · exact ⟨_, rfl, .inl ⟨_, _, by decide, by simp, by simp, by simp, rfl⟩⟩
    · exact ⟨_, rfl, .inr (.inr ⟨o, by omega, rfl, rfl⟩)⟩
  | send a o =>
    refine ⟨_, rfl, ?_⟩
    rcases performSend_cases a o s with ⟨_, h⟩ | ⟨hp, h⟩
    · exact .inl ⟨_, _, by decide, by simp, by simp, by simp, h⟩
    · exact .inr (.inl ⟨o, hp, h, a, o, .inl rfl⟩)
  | wrseg a o =>
    simp only [exec, execWrseg]
    split
    · rename_i l m r
      refine ⟨_, rfl, ?_⟩
      rcases performWrseg_cases a l m r s with ⟨_, h⟩ | ⟨_, h⟩
      · exact .inl ⟨_, _, by decide, by simp, by simp, by simp, h⟩
      · exact .inr (.inl ⟨_, by simpa using pmax_ge_five s.par, h, a, _, .inr (.inl rfl)⟩)
    · exact ⟨_, rfl, .inl ⟨_, _, by decide, by simp, by simp, by simp, rfl⟩⟩
  | wrdig a o =>
    simp only [exec, execWrdig]
    split
    · rename_i l m r
      split
      · refine ⟨_, rfl, ?_⟩
        rcases performChars_cases a (hexchar l) (hexchar m) (hexchar r) s with ⟨_, h⟩ | ⟨_, _, _, _, _, _, h⟩
        · exact .inl ⟨_, _, by decide, by simp, by simp, by simp, h⟩
        · exact .inr (.inl ⟨_, by simpa using pmax_ge_five s.par, h, a, _, .inr (.inr (.inl rfl))⟩)
      · exact ⟨_, rfl, .inl ⟨_, _, by decide, by simp, by simp, by simp, rfl⟩⟩
    · exact ⟨_, rfl, .inl ⟨_, _, by decide, by simp, by simp, by simp, rfl⟩⟩
  | wrstr a o =>
    simp only [exec, execWrstr]
    split
    · exact ⟨_, rfl, .inl ⟨_, _, by decide, by simp, by simp, by simp, rfl⟩⟩
    · refine ⟨_, rfl, ?_⟩
      rcases performChars_cases a ((pad3 o).getD 0 Config.space) ((pad3 o).getD 1 Config.space)
        ((pad3 o).getD 2 Config.space) s with ⟨_, h⟩ | ⟨_, _, _, _, _, _, h⟩
      · exact .inl ⟨_, _, by decide, by simp, by simp, by simp, h⟩
      · exact .inr (.inl ⟨_, by simpa using pmax_ge_five s.par, h, a, o, .inr (.inr (.inr rfl))⟩)
  | seg3 a o => exact ⟨_, rfl, .inl ⟨_, _, by decide, by simp, by simp, by simp, rfl⟩⟩

/-- `perform WRSEG` of characters, uniformly in the states that agree on the font: always the same error or always the
same payload transmitted. -/
theorem performChars_plan (a cl cm cr : Byte) (par : Params) :
    (∀ u : State, u.par = par → performChars a cl cm cr u = raise .unsupportedCharacter u) ∨
    (∃ p : List Byte, p.length ≤ par.pmax ∧
      ∀ u : State, u.par = par → performChars a cl cm cr u = transmit a p u) := by
  cases hl : fidx cl with
  | none => exact .inl fun u _ => by simp [performChars, mask, hl]
  | some kl =>
    cases hm : fidx cm with
    | none => exact .inl fun u _ => by simp [performChars, mask, hl, hm]
    | some km =>
      cases hr : fidx cr with
      | none => exact .inl fun u _ => by simp [performChars, mask, hl, hm, hr]
      | some kr =>
        refine .inr ⟨seg3Payload (zext8 (fontRead par kl)) (zext8 (fontRead par km)) (zext8 (fontRead par kr)),
          by simpa using pmax_ge_five par, fun u hu => ?_⟩
        rw [performChars_of_fidx a cl cm cr u kl km kr hl hm hr, hu]

/-- What a command does depends on the command, FONT and PMAX only: in all states that agree on these it ends with the
same result, transmits the same packet, or returns the same packet. -/
theorem exec_plan (i : Instr) (par : Params) :
    (∃ k l, ∀ u : State, u.par = par → exec i u = .next (finish k l u)) ∨
    (∃ p : List Byte, p.length ≤ par.pmax ∧ ∀ u : State, u.par = par → exec i u = .next (transmit i.addr p u)) ∨
    (∃ p : List Byte, p.length ≤ par.pmax ∧ ∀ u : State, u.par = par → exec i u = .next (returnPacket i.addr p u)) := by
  cases i with
  | lookup a o =>
    left
    simp only [exec, execLookup]
    split
    · split
      · exact ⟨_, _, fun u _ => rfl⟩
      · exact ⟨_, _, fun u hu => by rw [hu]⟩
    · exact ⟨_, _, fun u _ => rfl⟩
  | encode a o =>
    by_cases h : par.pmax < o.length
    · exact .inl ⟨_, _, fun u hu => by simp only [exec, execEncode, hu, if_pos h]; rfl⟩
    · exact .inr (.inr ⟨o, by omega, fun u hu => by simp only [exec, execEncode, hu, if_neg h]; rfl⟩)
  | send a o =>
    by_cases h : par.pmax < o.length
    · exact .inl ⟨_, _, fun u hu => by simp only [exec, execSend, performSend, hu, if_pos h]; rfl⟩
    · exact .inr (.inl ⟨o, by omega, fun u hu => by simp only [exec, execSend, performSend, hu, if_neg h]; rfl⟩)
  | wrseg a o =>
    simp only [exec, execWrseg]
    split
    · rename_i l m r
      by_cases h : validMask l && validMask m && validMask r
      · exact .inr (.inl ⟨seg3Payload l m r, by simpa using pmax_ge_five par,
          fun u _ => by simp only [performWrseg, if_pos h, performSend_seg3]; rfl⟩)
      · exact .inl ⟨_, _, fun u _ => by simp only [performWrseg, if_neg h]; rfl⟩
    · exact .inl ⟨_, _, fun u _ => rfl⟩
  | wrdig a o =>
    simp only [exec, execWrdig]
    split
    · split
      · rcases performChars_plan a _ _ _ par with h | ⟨p, hp, h⟩
        · exact .inl ⟨_, _, fun u hu => by rw [h u hu]; rfl⟩
        · exact .inr (.inl ⟨p, hp, fun u hu => by rw [h u hu]; rfl⟩)
      · exact .inl ⟨_, _, fun u _ => rfl⟩
    · exact .inl ⟨_, _, fun u _ => rfl⟩
  | wrstr a o =>
    simp only [exec, execWrstr]
    split
    · exact .inl ⟨_, _, fun u _ => rfl⟩
    · rcases performChars_plan a _ _ _ par with h | ⟨p, hp, h⟩
      · exact .inl ⟨_, _, fun u hu => by rw [h u hu]; rfl⟩
      · exact .inr (.inl ⟨p, hp, fun u hu => by rw [h u hu]; rfl⟩)
  | seg3 a o => exact .inl ⟨_, _, fun u _ => rfl⟩

end Sys2Proof.Machine
end

