-- ==== Sys2Proof/Laws/PerInstr.lean ====
section
/-! SUPPORT. Lemmas about each command as syntax, one per constructor. -/

namespace Sys2Proof.Laws.EncodeLength

open Sys2Proof

/-- A descriptor is `3 + N` bytes long (spec/30_encoding.md R81). -/
def Statement (i : Instr) : Prop := (encode i).length = 3 + i.opnd.length

theorem of_any (i : Instr) : Statement i := by
  simp only [Statement, Sys2Proof.encode, descriptorBytes, descriptorOf, List.length_cons]
  omega

theorem lookup (a : Byte) (o : List Byte) : Statement (.lookup a o) := of_any _
theorem encode (a : Byte) (o : List Byte) : Statement (.encode a o) := of_any _
theorem send (a : Byte) (o : List Byte) : Statement (.send a o) := of_any _
theorem wrseg (a : Byte) (o : List Byte) : Statement (.wrseg a o) := of_any _
theorem wrdig (a : Byte) (o : List Byte) : Statement (.wrdig a o) := of_any _
theorem wrstr (a : Byte) (o : List Byte) : Statement (.wrstr a o) := of_any _
theorem seg3 (a : Byte) (o : List Byte) : Statement (.seg3 a o) := of_any _

end Sys2Proof.Laws.EncodeLength
end

