-- ==== Sys2Proof/Laws/Sequencer.lean ====
section
/-! SUPPORT. What one step of the byte-level sequencer can do, said once: first in any state, then in a well-formed
one, where it takes the first byte off what is left of the packet. -/

namespace Sys2Proof.Machine

open Sys2Proof

/-- The state with every field the sequencer may write blanked: two states with the same one agree on all others. -/
def State.untouched (s : State) : State :=
  { s with
    tx := [], pass := false, phase := .idle, idx := 0, esc := false, csum := 0, rdata := [], result := none }

section untouched

variable {s u : State} (h : u.untouched = s.untouched)
include h

theorem untouched_level : u.level = s.level := (congrArg State.level h :)
theorem untouched_par : u.par = s.par := (congrArg State.par h :)
theorem untouched_opc : u.opc = s.opc := (congrArg State.opc h :)
theorem untouched_addr : u.addr = s.addr := (congrArg State.addr h :)
theorem untouched_n : u.n = s.n := (congrArg State.n h :)
theorem untouched_opnd : u.opnd = s.opnd := (congrArg State.opnd h :)
theorem untouched_pbuf : u.pbuf = s.pbuf := (congrArg State.pbuf h :)
theorem untouched_plen : u.plen = s.plen := (congrArg State.plen h :)
theorem untouched_dest : u.dest = s.dest := (congrArg State.dest h :)
theorem untouched_cmdPort : u.cmdPort = s.cmdPort := (congrArg State.cmdPort h :)
theorem untouched_pins : u.pins = s.pins := (congrArg State.pins h :)
theorem untouched_draws : u.draws = s.draws := (congrArg State.draws h :)
theorem untouched_clock : u.clock = s.clock := (congrArg State.clock h :)

theorem untouched_payload : u.payload = s.payload := by
  simp [State.payload, untouched_pbuf h, untouched_plen h]

theorem untouched_sizesOk (hs : s.SizesOk) : u.SizesOk := by
  simp only [State.SizesOk, untouched_opnd h, untouched_n h, untouched_pbuf h, untouched_par h, untouched_plen h]
  exact hs

end untouched

/-- `out`, both destinations: one of `tx` and the result data gains the byte. -/
theorem out_cases (b : Byte) (s : State) :
    (s.dest = .txPort ∧ out b s = { s with tx := s.tx ++ [b] }) ∨
    (s.dest = .resultPort ∧ out b s = { s with rdata := s.rdata ++ [b] }) := by
  unfold out
  split
  · exact .inl ⟨‹_›, rfl⟩
  · exact .inr ⟨‹_›, rfl⟩

@[simp] theorem out_untouched (b : Byte) (s : State) : (out b s).untouched = s.untouched := by
  rcases out_cases b s with ⟨_, h⟩ | ⟨_, h⟩ <;> rw [h] <;> rfl

section out

variable (b : Byte) (s : State)

@[simp] theorem out_addr : (out b s).addr = s.addr := untouched_addr (out_untouched b s)
@[simp] theorem out_pbuf : (out b s).pbuf = s.pbuf := untouched_pbuf (out_untouched b s)
@[simp] theorem out_plen : (out b s).plen = s.plen := untouched_plen (out_untouched b s)
@[simp] theorem out_dest : (out b s).dest = s.dest := untouched_dest (out_untouched b s)
@[simp] theorem out_payload : (out b s).payload = s.payload := untouched_payload (out_untouched b s)

@[simp] theorem out_pass : (out b s).pass = s.pass := by
  rcases out_cases b s with ⟨_, h⟩ | ⟨_, h⟩ <;> rw [h]
@[simp] theorem out_phase : (out b s).phase = s.phase := by
  rcases out_cases b s with ⟨_, h⟩ | ⟨_, h⟩ <;> rw [h]
@[simp] theorem out_idx : (out b s).idx = s.idx := by
  rcases out_cases b s with ⟨_, h⟩ | ⟨_, h⟩ <;> rw [h]
@[simp] theorem out_esc : (out b s).esc = s.esc := by
  rcases out_cases b s with ⟨_, h⟩ | ⟨_, h⟩ <;> rw [h]
@[simp] theorem out_csum : (out b s).csum = s.csum := by
  rcases out_cases b s with ⟨_, h⟩ | ⟨_, h⟩ <;> rw [h]
@[simp] theorem out_result : (out b s).result = s.result := by
  rcases out_cases b s with ⟨_, h⟩ | ⟨_, h⟩ <;> rw [h]

theorem out_tx : (out b s).tx = s.tx ++ if s.dest = .txPort then [b] else [] := by
  rcases out_cases b s with ⟨hd, h⟩ | ⟨hd, h⟩ <;> rw [h] <;> simp [hd]

theorem out_rdata : (out b s).rdata = s.rdata ++ if s.dest = .resultPort then [b] else [] := by
  rcases out_cases b s with ⟨hd, h⟩ | ⟨hd, h⟩ <;> rw [h] <;> simp [hd]

end out

/-- The three advances write only the position, CSUM, and at the end of a command the result port. -/
theorem advanceHdr_eq (s : State) : (advanceHdr s).untouched = s.untouched ∧ (advanceHdr s).tx = s.tx := by
  unfold advanceHdr
  split <;> exact ⟨rfl, rfl⟩

theorem advanceBody_eq (b : Byte) (s : State) :
    (advanceBody b s).untouched = s.untouched ∧ (advanceBody b s).tx = s.tx := by
  unfold advanceBody
  split <;> exact ⟨rfl, rfl⟩

theorem advanceTrl_eq (s : State) : (advanceTrl s).untouched = s.untouched ∧ (advanceTrl s).tx = s.tx := by
  unfold advanceTrl
  split
  · exact ⟨rfl, rfl⟩
  · split <;> exact ⟨rfl, rfl⟩

/-- In any state, a step of the sequencer that goes on writes only the sequencer's own fields and adds at most one
byte to `tx`. -/
theorem emitByte_cases {s t : State} (h : emitByte s = .next t) :
    t.untouched = s.untouched ∧ ∃ sent : List Byte, t.tx = s.tx ++ sent ∧ sent.length ≤ 1 := by
  have one : ∀ b : Byte, (if s.dest = .txPort then [b] else []).length ≤ 1 := by
    intro b
    split <;> simp
  unfold emitByte at h
  split at h
  · cases h
    exact ⟨rfl, [], by simp, by simp⟩
  · unfold stepHdr at h
    split at h <;> cases h
    exact ⟨(advanceHdr_eq _).1.trans (out_untouched _ _), _, by rw [(advanceHdr_eq _).2, out_tx], one _⟩
  · unfold stepBody at h
    split at h
    · cases h
    · split at h
      · cases h
        exact ⟨(advanceBody_eq _ _).1.trans (out_untouched _ _), _,
          by rw [(advanceBody_eq _ _).2]; exact out_tx _ _, one _⟩
      · split at h <;> cases h
        · exact ⟨out_untouched _ _, _, out_tx _ _, one _⟩
        · exact ⟨(advanceBody_eq _ _).1.trans (out_untouched _ _), _,
            by rw [(advanceBody_eq _ _).2, out_tx], one _⟩
  · unfold stepTrl at h
    split at h <;> cases h
    exact ⟨(advanceTrl_eq _).1.trans (out_untouched _ _), _, by rw [(advanceTrl_eq _).2, out_tx], one _⟩

/-- `sequencerStep`, the same. -/
theorem sequencerStep_cases {s t : State} (h : sequencerStep s = .next t) :
    t.untouched = (tick s).untouched ∧ ∃ sent : List Byte, t.tx = s.tx ++ sent ∧ sent.length ≤ 1 := by
  unfold sequencerStep at h
  split at h
  · exact emitByte_cases h
  · split at h
    · cases h
      exact ⟨rfl, [], by simp, by simp⟩
    · split at h
      · exact emitByte_cases h
      · cases h
        exact ⟨rfl, [], by simp, by simp⟩

/-! ## What is left of the packet -/

/-- The bytes the sequencer has still to emit from a position, for an address and a payload. -/
def bytesLeft (a : Byte) (p : List Byte) (pass : Bool) (phase : Phase) (idx : Nat) (esc : Bool) : List Byte :=
  (match phase with
    | .idle => []
    | .hdr => (header a).drop idx ++ escapedBody a p ++ trailer a
    | .body => (stuff ((frame a p).drop idx)).drop (if esc then 1 else 0) ++ trailer a
    | .trl => (trailer a).drop idx) ++
  (if phase ≠ .idle ∧ pass = false then wrapped a p else [])

/-- The bytes of the packet in progress that are still to be emitted. -/
def State.left (s : State) : List Byte := bytesLeft s.addr s.payload s.pass s.phase s.idx s.esc

theorem startPacket_left (e : Dest) (a : Byte) (p : List Byte) (s : State) :
    (startPacket e a p s).left = encodePacket a p := by
  simp [State.left, bytesLeft, startPacket, State.payload, encodePacket, wrapped]

/-- What emitting byte `b` does in a well-formed state, where `rest` is to be emitted after it: the result is
well-formed, the byte went where DEST says, and the command is over exactly when nothing is left. -/
structure Emitted (s u : State) (b : Byte) (rest : List Byte) : Prop where
  untouched : u.untouched = s.untouched
  inv : u.Inv
  left : u.left = rest
  tx : u.tx = s.tx ++ if s.dest = .txPort then [b] else []
  ends : rest = [] → u.AtRest ∧ u.result = some ⟨.ok, s.rdata ++ if s.dest = .resultPort then [b] else []⟩
  goesOn : rest ≠ [] → u.busy = true ∧ u.result = s.result ∧
    u.rdata = s.rdata ++ if s.dest = .resultPort then [b] else []

theorem payload_length {s : State} (h : s.SizesOk) : s.payload.length = s.plen := by
  simp [State.payload]
  omega

/-- In BODY of a well-formed state the frame view is the frame (spec/20_memory.md R54). -/
theorem frameByte_of_inv {s : State} (h : s.Inv) (hb : s.phase = .body) :
    frameByte s = (frame s.addr s.payload)[s.idx]? := by
  obtain ⟨hs, hp, hc⟩ := h
  have hl := payload_length hs
  have hi := (hp.2.2.1 hb).1
  unfold frameByte frame packetData
  split
  · simp [‹s.idx = 0›]
  · split
    · obtain ⟨k, hk⟩ : ∃ k, s.idx = k + 1 := ⟨s.idx - 1, by omega⟩
      rw [List.getElem?_append_left (by simp; omega), hk]
      simp [State.payload, List.getElem?_take]
      omega
    · have hi' : s.idx = s.plen + 1 := by omega
      rw [if_pos hi', List.getElem?_append_right (by simp; omega), hc hb, hi', packetData,
        List.take_of_length_le (by simp; omega)]
      simp [hl]

theorem csum_step {s : State} (hs : s.Inv) (hp : s.phase = .body) {b : Byte}
    (hb : (frame s.addr s.payload)[s.idx]? = some b) (hle : s.idx ≤ s.plen) :
    s.csum + b = checksum ((packetData s.addr s.payload).take (s.idx + 1)) := by
  have hl := payload_length hs.1
  rw [hs.2.2 hp, ← checksum_concat, List.take_add_one]
  rw [frame, List.getElem?_append_left (by simp [packetData]; omega)] at hb
  rw [hb]
  rfl

/-- The common part of the steps that do not end the command: `u` is `s` after `out b` at another position. -/
theorem Emitted.of_goes_on {s u : State} {b : Byte} {rest : List Byte} (hs : s.Inv)
    (hu : u.untouched = s.untouched) (htx : u.tx = (out b s).tx) (hrd : u.rdata = (out b s).rdata)
    (hres : u.result = s.result) (hbusy : u.phase ≠ .idle)
    (hpos : u.phase = .hdr ∨ u.phase = .trl → u.idx ≤ 4 ∧ u.esc = false)
    (hbody : u.phase = .body →
      u.idx ≤ u.plen + 1 ∧ (u.esc = true → (frameByte u).any needsEscape = true))
    (hcsum : u.CsumOk) (hleft : bytesLeft s.addr s.payload u.pass u.phase u.idx u.esc = rest) (hne : rest ≠ []) :
    Emitted s u b rest where
  untouched := hu
  inv := by
    refine ⟨untouched_sizesOk hu hs.1, ⟨fun h => absurd h hbusy, hpos, hbody, fun h => ?_⟩, hcsum⟩
    have hd : s.dest = .txPort := (untouched_dest hu) ▸ h
    rw [hrd, out_rdata, hs.2.1.2.2.2 hd]
    simp [hd]
  left := by rw [State.left, untouched_addr hu, untouched_payload hu, hleft]
  tx := htx.trans (out_tx b s)
  ends := fun h => absurd h hne
  goesOn := fun _ => ⟨by simp [State.busy, hbusy], hres, hrd.trans (out_rdata b s)⟩

theorem stepHdr_emits {s : State} (hs : s.Inv) (hp : s.phase = .hdr) :
    ∃ b rest u, s.left = b :: rest ∧ stepHdr s = .next u ∧ Emitted s u b rest := by
  obtain ⟨hi, he⟩ := hs.2.1.2.1 (.inl hp)
  have hlt : s.idx < (header s.addr).length := by rw [header_length]; omega
  have hdrop := List.drop_eq_getElem_cons hlt
  have hget : (header s.addr)[s.idx]? = some ((header s.addr)[s.idx]) := List.getElem?_eq_getElem hlt
  generalize (header s.addr)[s.idx] = b at hdrop hget
  refine ⟨b, _, _, by simp only [State.left, bytesLeft, hp, hdrop]; rfl, by simp only [stepHdr, hget]; rfl, ?_⟩
  unfold advanceHdr
  split
  · rename_i h4
    rw [out_idx] at h4
    have h5 : (header s.addr).drop (s.idx + 1) = [] := by rw [h4]; rfl
    refine Emitted.of_goes_on hs (out_untouched b s) rfl rfl (out_result b s) (by simp) (by simp) (by simp) ?_ ?_
      (by simp [trailer])
    · intro _
      rfl
    · rw [h5]
      simp [bytesLeft, escapedBody]
  · rename_i h4
    rw [out_idx] at h4
    refine Emitted.of_goes_on hs (out_untouched b s) rfl rfl (out_result b s) (by simp [hp])
      (by simp [he]; omega) (by simp [hp]) (fun h => by simp [hp] at h) ?_ (by simp [trailer])
    simp [bytesLeft, hp]

theorem stepTrl_emits {s : State} (hs : s.Inv) (hp : s.phase = .trl) :
    ∃ b rest u, s.left = b :: rest ∧ stepTrl s = .next u ∧ Emitted s u b rest := by
  obtain ⟨hi, he⟩ := hs.2.1.2.1 (.inr hp)
  have hlt : s.idx < (trailer s.addr).length := by rw [trailer_length]; omega
  have hdrop := List.drop_eq_getElem_cons hlt
  have hget : (trailer s.addr)[s.idx]? = some ((trailer s.addr)[s.idx]) := List.getElem?_eq_getElem hlt
  generalize (trailer s.addr)[s.idx] = b at hdrop hget
  refine ⟨b, _, _, by simp only [State.left, bytesLeft, hp, hdrop]; rfl, by simp only [stepTrl, hget]; rfl, ?_⟩
  unfold advanceTrl
  split
  · rename_i h4
    rw [out_idx] at h4
    have hne : (trailer s.addr).drop (s.idx + 1) ≠ [] := by
      intro h
      have := congrArg List.length h
      simp at this
      omega
    refine Emitted.of_goes_on hs (out_untouched b s) rfl rfl (out_result b s) (by simp [hp])
      (by simp [he]; omega) (by simp [hp]) (fun h => by simp [hp] at h) ?_ (by simp [hne])
    simp [bytesLeft, hp]
  · rename_i h4
    rw [out_idx] at h4
    have h5 : (trailer s.addr).drop (s.idx + 1) = [] := by
      rw [show s.idx = 4 by omega]
      rfl
    split
    · rename_i hpass
      rw [out_pass] at hpass
      rw [h5, hpass]
      exact {
        untouched := out_untouched b s
        inv := ⟨untouched_sizesOk (out_untouched b s) hs.1,
          ⟨fun _ => ⟨rfl, rfl, rfl, rfl, rfl⟩, by simp, by simp, by simp⟩, fun h => by simp at h⟩
        left := rfl
        tx := out_tx b s
        ends := fun _ => ⟨⟨rfl, rfl, rfl, rfl, rfl⟩, by rw [finish_result, out_rdata]⟩
        goesOn := fun h => absurd rfl h }
    · rename_i hpass
      rw [out_pass, Bool.not_eq_true] at hpass
      refine Emitted.of_goes_on hs (out_untouched b s) rfl rfl (out_result b s) (by simp) (by simp [he]) (by simp)
        (fun h => by simp at h) ?_ (by simp [h5, hpass, wrapped_ne_nil])
      simp [h5, bytesLeft, wrapped, hpass]

/-- The last byte emitted for frame byte `f`, in a state already out of the pair: the `advance` of R158. -/
theorem advanceBody_emits {s v : State} {f b : Byte} (hs : s.Inv) (hp : s.phase = .body)
    (hget : (frame s.addr s.payload)[s.idx]? = some f) (hv : v = { out b s with esc := false }) :
    Emitted s (advanceBody f v) b (stuff ((frame s.addr s.payload).drop (s.idx + 1)) ++ trailer s.addr ++
      if s.pass = false then wrapped s.addr s.payload else []) := by
  have hl := payload_length hs.1
  subst hv
  unfold advanceBody
  split
  · rename_i hle
    simp only [out_idx, out_plen] at hle
    refine Emitted.of_goes_on hs (out_untouched b s) rfl rfl (out_result b s) (by simp [hp]) (by simp [hp]) ?_ ?_ ?_
      (by simp [trailer])
    · simp
      omega
    · intro _
      show (out b s).csum + f = checksum ((packetData (out b s).addr (out b s).payload).take ((out b s).idx + 1))
      simp only [out_csum, out_addr, out_payload, out_idx]
      exact csum_step hs hp hget hle
    · simp [bytesLeft, hp]
  · rename_i hle
    simp only [out_idx, out_plen] at hle
    have hnil : (frame s.addr s.payload).drop (s.idx + 1) = [] := by
      apply List.drop_eq_nil_of_le
      simp
      omega
    refine Emitted.of_goes_on hs (out_untouched b s) rfl rfl (out_result b s) (by simp) (by simp) (by simp)
      (fun h => by simp at h) ?_ (by simp [trailer])
    simp [bytesLeft, hnil]

theorem stepBody_emits {s : State} (hs : s.Inv) (hp : s.phase = .body) :
    ∃ b rest u, s.left = b :: rest ∧ stepBody s = .next u ∧ Emitted s u b rest := by
  obtain ⟨hi, he⟩ := hs.2.1.2.2.1 hp
  have hlt : s.idx < (frame s.addr s.payload).length := by
    rw [frame_length, payload_length hs.1]
    omega
  have hdrop := List.drop_eq_getElem_cons hlt
  have hget : (frame s.addr s.payload)[s.idx]? = some ((frame s.addr s.payload)[s.idx]) :=
    List.getElem?_eq_getElem hlt
  generalize (frame s.addr s.payload)[s.idx] = f at hdrop hget
  have hfr : frameByte s = some f := by rw [frameByte_of_inv hs hp, hget]
  have hleft : s.left = (stuff1 f ++ stuff ((frame s.addr s.payload).drop (s.idx + 1))).drop (if s.esc then 1 else 0) ++
      trailer s.addr ++ if s.pass = false then wrapped s.addr s.payload else [] := by
    simp only [State.left, bytesLeft, hp, hdrop, stuff_cons]
    simp
  rcases stuff1_cases f with ⟨hff, hne, hge, h1⟩ | ⟨_, hne, hge, h1⟩
  · rw [h1] at hleft
    cases hesc : s.esc with
    | true =>
      rw [hesc] at hleft
      refine ⟨_, _, _, hleft, by simp only [stepBody, hfr, hesc]; rfl, ?_⟩
      exact advanceBody_emits hs hp hget rfl
    | false =>
      rw [hesc] at hleft
      refine ⟨Config.escMarker, _, _, hleft, by simp only [stepBody, hfr, hesc, hge]; rfl, ?_⟩
      refine Emitted.of_goes_on hs (out_untouched _ s) rfl rfl (out_result _ s) (by simp [hp]) (by simp [hp]) ?_ ?_ ?_
        (by simp)
      · intro _
        refine ⟨by simp; omega, fun _ => ?_⟩
        have hview : frameByte { out Config.escMarker s with esc := true } = frameByte s := by simp [frameByte]
        rw [hview, hfr]
        exact hne
      · intro _
        show (out Config.escMarker s).csum =
          checksum ((packetData (out Config.escMarker s).addr (out Config.escMarker s).payload).take
            (out Config.escMarker s).idx)
        simp only [out_csum, out_addr, out_payload, out_idx]
        exact hs.2.2 hp
      · simp [bytesLeft, hp, hdrop, stuff_cons, h1]
  · have hesc : s.esc = false := by
      cases h : s.esc with
      | false => rfl
      | true => simp [hfr, hne] at he; exact absurd h (by simp [he])
    rw [h1, hesc] at hleft
    refine ⟨f, _, _, hleft, by simp only [stepBody, hfr, hesc, hge]; rfl, ?_⟩
    refine advanceBody_emits hs hp hget ?_
    rw [← hesc, ← out_esc f s]

/-- In a well-formed state with a command in progress, the step that emits a byte never stops and takes the first byte
off what is left of the packet. -/
theorem emitByte_emits {s : State} (hs : s.Inv) (hp : s.phase ≠ .idle) :
    ∃ b rest u, s.left = b :: rest ∧ emitByte s = .next u ∧ Emitted s u b rest := by
  unfold emitByte
  cases h : s.phase with
  | idle => exact absurd h hp
  | hdr => exact stepHdr_emits hs h
  | body => exact stepBody_emits hs h
  | trl => exact stepTrl_emits hs h

end Sys2Proof.Machine
end

