-- ==== Sys2Proof/Laws/Step.lean ====
section
/-! SUPPORT. What a step can do, said once, and how the inputs and runs unfold from step to step. -/

namespace Sys2Proof.Machine

open Sys2Proof

theorem step_of_busy {s : State} (hr : s.pinsNow.rst = false) (hb : s.busy = true) : step s = sequencerStep s := by
  simp [step, hr, hb]

/-- `fetch`, both ways it presents nothing (spec/10_state.md R33). -/
theorem fetch_eq_none (s : State) : fetch s = none ↔ s.pinsNow.valid = false ∨ splitDescriptor s.cmdPort = none := by
  unfold fetch
  cases s.pinsNow.valid <;> simp

/-- `fetch`, where it presents a descriptor: `valid` is high, and the descriptor, its count right, stands in front of
the rest. -/
theorem fetch_eq_some {s : State} {d : Descriptor} {rest : List Byte} (h : fetch s = some (d, rest)) :
    s.pinsNow.valid = true ∧ splitDescriptor s.cmdPort = some (d, rest) ∧ d.opnd.length = d.n.toNat := by
  unfold fetch at h
  split at h
  · exact ⟨‹_›, h, (splitDescriptor_some _ _ _ h).1⟩
  · cases h

theorem step_of_accept {s : State} {d : Descriptor} {rest : List Byte} {i : Instr} (hr : s.pinsNow.rst = false)
    (hb : s.busy = false) (hf : fetch s = some (d, rest)) (hd : decodeDescriptor d = .ok i) :
    step s = exec i (accept d rest s) := by
  simp [step, hr, hb, hf, hd]

/-- What a step that goes on can do: reset, let the sequencer step, wait idle, run the accepted command, or refuse an
accepted reserved code. -/
theorem step_cases {s t : State} (h : step s = .next t) :
    (s.pinsNow.rst = true ∧ t = assertReset s) ∨
    (s.pinsNow.rst = false ∧ s.busy = true ∧ sequencerStep s = .next t) ∨
    (s.pinsNow.rst = false ∧ s.busy = false ∧ fetch s = none ∧ t = tick s) ∨
    (s.pinsNow.rst = false ∧ s.busy = false ∧ ∃ d rest i, fetch s = some (d, rest) ∧ d.opnd.length = d.n.toNat ∧
      decodeDescriptor d = .ok i ∧ exec i (accept d rest s) = .next t) ∨
    (s.pinsNow.rst = false ∧ s.busy = false ∧ ∃ d rest e, fetch s = some (d, rest) ∧ d.opnd.length = d.n.toNat ∧
      decodeDescriptor d = .error e ∧ t = raise .illegalCommand (accept d rest s)) := by
  unfold step at h
  split at h
  · rename_i hr
    cases h
    exact .inl ⟨hr, rfl⟩
  · rename_i hr
    rw [Bool.not_eq_true] at hr
    split at h
    · exact .inr (.inl ⟨hr, ‹_›, h⟩)
    · rename_i hb
      rw [Bool.not_eq_true] at hb
      split at h
      · cases h
        exact .inr (.inr (.inl ⟨hr, hb, ‹_›, rfl⟩))
      · rename_i d rest hf
        have hn := (fetch_eq_some hf).2.2
        split at h
        · exact .inr (.inr (.inr (.inl ⟨hr, hb, d, rest, _, hf, hn, ‹_›, h⟩)))
        · cases h
          exact .inr (.inr (.inr (.inr ⟨hr, hb, d, rest, _, hf, hn, ‹_›, rfl⟩)))

/-! ## The inputs, step by step -/

theorem pinsAt_zero (s : State) : s.pinsAt 0 = s.pinsNow := by
  unfold State.pinsAt State.pinsNow
  cases s.pins <;> simp

/-- After a step the pin levels of `k` steps on are those of `k + 1` steps on before it. -/
theorem pinsAt_of_tick {s t : State} (hp : t.pins = s.pins.tail) (hc : t.clock = s.clock + 1) (k : Nat) :
    t.pinsAt k = s.pinsAt (k + 1) := by
  unfold State.pinsAt
  rw [hp, hc]
  cases s.pins <;> simp [Nat.add_assoc, Nat.add_comm 1 k]

theorem readyCount_zero (s : State) : s.readyCount 0 = 0 := rfl

theorem readyCount_succ (s : State) (n : Nat) :
    s.readyCount (n + 1) = s.readyCount n + if (s.pinsAt n).txReady then 1 else 0 := by
  simp [State.readyCount, List.range_succ, List.countP_cons]

/-- `readyCount_succ` from the other end: the next step first. -/
theorem readyCount_succ_first {s t : State} (h : ∀ k, t.pinsAt k = s.pinsAt (k + 1)) (n : Nat) :
    s.readyCount (n + 1) = (if (s.pinsAt 0).txReady then 1 else 0) + t.readyCount n := by
  simp only [State.readyCount, h]
  rw [List.range_succ_eq_map]
  simp [List.countP_cons, List.countP_map, Function.comp_def]
  omega

/-! ## Runs -/

theorem host_run_succ (M : Host.Core) (n : Nat) (s t : M.State) (h : M.step s = .next t) :
    M.run (n + 1) s = M.run n t := by
  simp only [Host.Core.run, h]

theorem host_run_next (M : Host.Core) (n : Nat) (s t : M.State) (h : M.run (n + 1) s = .next t) :
    ∃ u, M.step s = .next u ∧ M.run n u = .next t := by
  simp only [Host.Core.run] at h
  cases hs : M.step s with
  | next u =>
    rw [hs] at h
    exact ⟨u, rfl, h⟩
  | fault r =>
    rw [hs] at h
    cases h
  | refused r =>
    rw [hs] at h
    cases h

theorem run_zero (s : State) : run 0 s = .next s := rfl

theorem run_succ (n : Nat) {s t : State} (h : step s = .next t) : run (n + 1) s = run n t :=
  host_run_succ Sys2Proof.core n s t h

theorem run_add (m n : Nat) {s t : State} (h : run m s = .next t) : run (m + n) s = run n t := by
  induction m generalizing s with
  | zero =>
    cases h
    simp
  | succ m ih =>
    obtain ⟨u, h1, h2⟩ := host_run_next Sys2Proof.core m s t h
    have hs : step s = .next u := h1
    rw [Nat.succ_add, run_succ _ hs]
    exact ih h2

end Sys2Proof.Machine
end

