-- ==== Sys2Proof/Tests/Slice0.lean ====
section
/-! SUPPORT. Tests of the model on fixed values, each with its source in spec/, and for every statement that has
hypotheses a witness that they can be met. No test runs more than one step. -/

open Sys2Proof Sys2Proof.Machine

namespace Sys2Proof.Tests

/-- FONT_CANDIDATE (spec/40_segment_font.md section 2), for tests only: general knowledge, not in the source. -/
def candidate : Params where
  pmaxOver5 := 27
  glyphs :=
    #v[0x3F, 0x06, 0x5B, 0x4F, 0x66, 0x6D, 0x7D, 0x07, 0x7F, 0x6F, 0x77, 0x7C, 0x39, 0x5E, 0x79, 0x71, 0x3D, 0x76,
      0x30, 0x1E, 0x75, 0x38, 0x15, 0x37, 0x3F, 0x73, 0x6B, 0x33, 0x6D, 0x78, 0x3E, 0x3E, 0x2A, 0x76, 0x6E, 0x5B]

/-- Idle at the transaction level, with the given draws and command port. -/
def idle (draws : List (Option Nat)) (cmdPort : List Byte) : State :=
  { State.reset with par := candidate, draws := draws, cmdPort := cmdPort, pins := [⟨false, true, true, false⟩] }

/-- Idle at the byte level, with the given pin levels. -/
def idleByte (pins : List Pins) : State := { State.reset with level := .byte, par := candidate, pins := pins }

/-- At the byte level in the middle of the packet of address 01 and payload `FF`. -/
def busyAt (dest : Dest) (phase : Phase) (idx : Nat) (esc pass : Bool) (pin : Pins) : State :=
  { idleByte [pin] with
    addr := 0x01, plen := 1, pbuf := 0xFF :: List.replicate 31 0, dest := dest, phase := phase, idx := idx, esc := esc,
    pass := pass, csum := if phase = .body ∧ idx ≠ 0 then (if idx = 1 then 0x01 else 0x00) else 0x00 }

/-- valid and tx_ready high, tx_err low, no reset. -/
def ready : Pins := ⟨false, true, true, false⟩

/-- The status, the result data and the transmit history after a next state. -/
def seen : Host.Outcome State Fault Refusal → Option (Option Result × List Byte)
  | .next s => some (s.result, s.tx)
  | _ => none

/-- What a step sees of a descriptor on the command port, under a draw. -/
def stepSees (draw : Option Nat) (descriptor : List Byte) : Option (Option Result × List Byte) :=
  seen (step (idle [draw] descriptor))

/-! ## Well-formedness: an ill-formed term for each check -/

set_option maxRecDepth 8000 in
theorem test_wf_refuses_256_operands :
    (Instr.send 0x01 (List.replicate 256 0x00)).wf = false := by decide
set_option maxRecDepth 8000 in
theorem test_wf_takes_255_operands :
    (Instr.send 0x01 (List.replicate 255 0x00)).wf = true := by decide
theorem test_wellShaped_refuses_lookup : (Instr.lookup 0x00 [0x41, 0x42]).wellShaped 32 = false := by decide
theorem test_wellShaped_refuses_encode : (Instr.encode 0x01 (List.replicate 33 0x00)).wellShaped 32 = false := by decide
theorem test_wellShaped_refuses_send : (Instr.send 0x01 (List.replicate 33 0x00)).wellShaped 32 = false := by decide
theorem test_wellShaped_refuses_wrseg : (Instr.wrseg 0x01 [0x00, 0x00]).wellShaped 32 = false := by decide
theorem test_wellShaped_refuses_wrdig : (Instr.wrdig 0x01 [0x01, 0x02]).wellShaped 32 = false := by decide
theorem test_wellShaped_refuses_wrstr : (Instr.wrstr 0x01 [0x41, 0x42, 0x43, 0x44]).wellShaped 32 = false := by decide
theorem test_wellShaped_refuses_seg3 : (Instr.seg3 0x01 []).wellShaped 32 = false := by decide
theorem test_wellShaped_takes_wrstr : (Instr.wrstr 0x01 []).wellShaped 32 = true := by decide

/-! ## Decoding: descriptors written out in spec/95_test_vectors.md -/

/-- D-F9. -/
theorem test_decode_lookup : decode [0x00, 0xFF, 0x01, 0x37] = .ok (.lookup 0xFF [0x37], []) := by decide
/-- S1a. -/
theorem test_decode_encode :
    decode [0x01, 0x01, 0x05, 0xAE, 0x00, 0x00, 0x00, 0x00] = .ok (.encode 0x01 [0xAE, 0x00, 0x00, 0x00, 0x00], []) := by
  decide
/-- D-T2 with another descriptor behind it. -/
theorem test_decode_send : decode [0x02, 0x00, 0x00, 0x00] = .ok (.send 0x00 [], [0x00]) := by decide
/-- D-W1. -/
theorem test_decode_wrseg : decode [0x03, 0x05, 0x03, 0x01, 0x02, 0x04] = .ok (.wrseg 0x05 [0x01, 0x02, 0x04], []) := by
  decide
/-- D-W16. -/
theorem test_decode_wrdig : decode [0x04, 0x02, 0x03, 0x01, 0x02, 0x03] = .ok (.wrdig 0x02 [0x01, 0x02, 0x03], []) := by
  decide
/-- D-W23. -/
theorem test_decode_wrstr : decode [0x05, 0x01, 0x02, 0x48, 0x69] = .ok (.wrstr 0x01 [0x48, 0x69], []) := by decide
/-- D-E3. -/
theorem test_decode_seg3 :
    decode [0xAE, 0x01, 0x05, 0xAE, 0x00, 0x00, 0x00, 0x00] = .ok (.seg3 0x01 [0xAE, 0x00, 0x00, 0x00, 0x00], []) := by
  decide
/-- R84: the first and the last reserved code. -/
theorem test_decode_reserved :
    decode [0x06, 0x00, 0x00] = .error (.reserved 0x06) ∧ decode [0xFF, 0x00, 0x00] = .error (.reserved 0xFF) := by
  decide
/-- R81: fewer than `3 + N` bytes are no descriptor. -/
theorem test_decode_incomplete : decode [] = .error .incomplete ∧ decode [0x02, 0x01, 0x01] = .error .incomplete := by
  decide
/-- D-F9 as a word: byte 0 in bits 7..0. -/
theorem test_table_word : decodeTableWord 32 0x3701FF00 = some (.lookup 0xFF [0x37]) := by decide
/-- Operands past the bits of the word read as 0. -/
theorem test_table_word_short : decodeTableWord 24 0x020102 = some (.send 0x01 [0x00, 0x00]) := by decide
theorem test_encode : encode (.wrstr 0x01 [0x48, 0x69]) = [0x05, 0x01, 0x02, 0x48, 0x69] := by decide

/-! ## The function `encode` -/

/-- D-C4: the checksum byte is stuffed too. -/
theorem test_wrapped_stuffs_checksum :
    wrapped 0x01 [0xFE] =
      [0xFF, 0x01, 0x01, 0xFF, 0xFF, 0x01, 0xFE, 0x00, 0xFE, 0x01, 0xFF, 0xFF, 0x01, 0x01, 0xFF] := by decide
/-- D-C10. -/
theorem test_wrapped_neighbours :
    wrapped 0x10 [0xFD, 0xFE, 0xFF, 0x00, 0x01] =
      [0xFF, 0x10, 0x10, 0xFF, 0xFF, 0x10, 0xFD, 0xFE, 0x00, 0xFE, 0x01, 0x00, 0x01, 0x0B, 0xFF, 0xFF, 0x10, 0x10,
        0xFF] := by decide
/-- D-C6: an address FE is raw in the sentinels and stuffed in the body. -/
theorem test_wrapped_address_fe :
    wrapped 0xFE [] =
      [0xFF, 0xFE, 0xFE, 0xFF, 0xFF, 0xFE, 0x00, 0xFE, 0x00, 0xFF, 0xFF, 0xFE, 0xFE, 0xFF] := by decide
set_option maxRecDepth 4000 in
/-- D-C13: the longest packet for PMAX = 32. -/
theorem test_longest_packet : (encodePacket 0xFF (List.replicate 32 0xFF)).length = 154 := by decide

/-! ## One step of each command at the transaction level -/

/-- D-F4 with FONT_CANDIDATE. -/
theorem test_lookup : stepSees none [0x00, 0x00, 0x01, 0x41] = some (some ⟨.ok, [0x77]⟩, []) := by decide
/-- D-F24: the count is checked before any character. -/
theorem test_lookup_count : stepSees none [0x00, 0x00, 0x02, 0x21, 0x21] = some (some ⟨.invalidInput, []⟩, []) := by
  decide
/-- D-C2. -/
theorem test_encode_step :
    stepSees none [0x01, 0x00, 0x00] =
      some (some ⟨.ok, [0xFF, 0x00, 0x00, 0xFF, 0xFF, 0x00, 0x00, 0xFF, 0xFF, 0x00, 0x00, 0xFF,
        0xFF, 0x00, 0x00, 0xFF, 0xFF, 0x00, 0x00, 0xFF, 0xFF, 0x00, 0x00, 0xFF]⟩, []) := by decide
/-- D-C16. -/
theorem test_encode_too_long :
    stepSees none ([0x01, 0x01, 0x21] ++ List.replicate 33 0x00) = some (some ⟨.illegalCommand, []⟩, []) := by decide
/-- D-T1. -/
theorem test_send :
    stepSees none [0x02, 0x01, 0x01, 0x01] =
      some (some ⟨.ok, []⟩, [0xFF, 0x01, 0x01, 0xFF, 0xFF, 0x01, 0x01, 0x02, 0xFF, 0xFF, 0x01, 0x01, 0xFF,
        0xFF, 0x01, 0x01, 0xFF, 0xFF, 0x01, 0x01, 0x02, 0xFF, 0xFF, 0x01, 0x01, 0xFF]) := by decide
/-- D-T4. -/
theorem test_send_fails :
    stepSees (some 7) [0x02, 0x01, 0x01, 0x01] =
      some (some ⟨.transportError, []⟩, [0xFF, 0x01, 0x01, 0xFF, 0xFF, 0x01, 0x01]) := by decide
/-- D-W9: the checksum is B4 and the packet has 36 bytes; the first copy is looked at. -/
theorem test_wrseg :
    (stepSees none [0x03, 0xFF, 0x03, 0x01, 0x02, 0x04]).map (fun x => (x.1, x.2.take 18, x.2.length)) =
      some (some ⟨.ok, []⟩, [0xFF, 0xFF, 0xFF, 0xFF, 0xFF, 0xFE, 0x01, 0xAE, 0x04, 0x02, 0x01, 0x00, 0xB4,
        0xFF, 0xFF, 0xFF, 0xFF, 0xFF], 36) := by decide
/-- D-W5. -/
theorem test_wrseg_range :
    stepSees none [0x03, 0x01, 0x03, 0x00, 0x00, 0x80] = some (some ⟨.outOfRange, []⟩, []) := by decide
/-- D-W10 with FONT_CANDIDATE: the body of the first copy. -/
theorem test_wrdig :
    (stepSees none [0x04, 0x01, 0x03, 0x00, 0x0E, 0x09]).map (fun x => (x.1, (x.2.drop 5).take 7)) =
      some (some ⟨.ok, []⟩, [0x01, 0xAE, 0x6F, 0x79, 0x3F, 0x00, 0xD6]) := by decide
/-- D-W12. -/
theorem test_wrdig_range :
    stepSees none [0x04, 0x01, 0x03, 0x00, 0x00, 0x0F] = some (some ⟨.outOfRange, []⟩, []) := by decide
/-- D-W23 with FONT_CANDIDATE: the body of the first copy. -/
theorem test_wrstr :
    (stepSees none [0x05, 0x01, 0x02, 0x48, 0x69]).map (fun x => (x.1, (x.2.drop 5).take 7)) =
      some (some ⟨.ok, []⟩, [0x01, 0xAE, 0x00, 0x30, 0x76, 0x00, 0x55]) := by decide
/-- D-W28: the length is checked before the characters. -/
theorem test_wrstr_order :
    stepSees none [0x05, 0x01, 0x04, 0x41, 0x42, 0x21, 0x44] = some (some ⟨.invalidInput, []⟩, []) := by decide
/-- D-E3. -/
theorem test_seg3 :
    stepSees none [0xAE, 0x01, 0x05, 0xAE, 0x00, 0x00, 0x00, 0x00] = some (some ⟨.illegalCommand, []⟩, []) := by decide

/-- S12 as a word, run as the first command after reset: the mask of space is 0 for every FONT. -/
theorem test_withFetchWord :
    seen (step (State.reset.withFetchWord 32 0x20010000)) = some (some ⟨.ok, [0x00]⟩, []) := by decide

/-- R33: with `valid` low the descriptor of D-F4 stays on the port and no result is produced. -/
theorem test_valid_low :
    (match step { idle [] [0x00, 0x00, 0x01, 0x41] with pins := [⟨false, false, true, false⟩] } with
      | .next s => some (s.result, s.cmdPort)
      | _ => none) = some (none, [0x00, 0x00, 0x01, 0x41]) := by decide

/-! ## One step of the sequencer, and reset -/

/-- S2: the payload byte FF of `FF 01 01 FF FF 01 FE 01 00 ...` leaves as FE, then 01. -/
theorem test_body_opens_pair : seen (step (busyAt .txPort .body 1 false false ready)) = some (none, [0xFE]) := by decide
theorem test_body_closes_pair : seen (step (busyAt .txPort .body 1 true false ready)) = some (none, [0x01]) := by decide
/-- R160: the last trailer byte ends the command. -/
theorem test_last_byte : seen (step (busyAt .txPort .trl 4 false true ready)) = some (some ⟨.ok, []⟩, [0xFF]) := by decide
/-- R247: tx_err wins over a transfer. -/
theorem test_tx_err_wins :
    seen (step (busyAt .txPort .hdr 0 false false ⟨false, true, true, true⟩)) = some (some ⟨.transportError, []⟩, []) := by decide
/-- R270: reset wins over everything. -/
theorem test_reset_wins : seen (step (busyAt .txPort .hdr 0 false false ⟨true, true, true, true⟩)) = some (none, []) := by decide

/-! ## Witnesses: the hypotheses of each statement can be met, each clause at a boundary of its range -/

set_option maxRecDepth 8000 in
theorem witness_DecodeOfEncodeIsTheCommand :
    (Instr.send 0xFF (List.replicate 255 0xFF)).wf = true ∧ (Instr.lookup 0x00 []).wf = true := by decide
theorem witness_EncodeOfDecodeIsTheBytes :
    decode [0x02, 0x01, 0x01, 0xFF, 0x05] = .ok (.send 0x01 [0xFF], [0x05]) := by decide
theorem witness_DigitSelectsTheNextFontEntry : (0x00 : Byte).toNat ≤ 14 ∧ (0x0E : Byte).toNat ≤ 14 := by decide
theorem witness_UnstuffInvertsStuff :
    (0x02 : Byte) ≤ 0x02 ∧ (0x02 : Byte) ≤ 0xFF ∧ (0x00 : Byte) ≤ 0xFD ∧ (0xFD : Byte) ≤ 0xFD := by decide
/-- Clauses 2 to 5 at the first and the last offset of each range, for address FE and no payload. -/
theorem witness_WhereDelimiterAndEscapeStand :
    (0x00 : Byte) ∈ escapedBody 0xFE [] ∧ (escapedBody 0xFE [])[0]? = some 0xFE ∧ (escapedBody 0xFE [])[2]? = some 0xFE ∧
    (5 ≤ 5 ∧ 5 < 5 + (escapedBody 0xFE []).length) ∧ (5 ≤ 8 ∧ 8 < 5 + (escapedBody 0xFE []).length) := by decide
theorem witness_PacketLengthBounds :
    (List.replicate 32 (0xFF : Byte)).length ≤ candidate.pmax ∧ ([] : List Byte).length ≤ candidate.pmax ∧
    (List.replicate 32 (0xFF : Byte)).length = 32 := by decide
theorem witness_PacketDeterminesAddressAndPayload : encodePacket 0xFF [0xFE] = encodePacket 0xFF [0xFE] := rfl
theorem witness_LookupAnswersTheMask :
    (idle [] []).AtRest ∧ fidx 0x20 = some 0 ∧ fidx 0x7A = some 36 ∧
    ((0x61 : Byte) ≤ 0x61 ∧ (0x61 : Byte) ≤ 0x7A) ∧ ((0x61 : Byte) ≤ 0x7A ∧ (0x7A : Byte) ≤ 0x7A) := by decide
theorem witness_LookupErrors :
    (idle [] []).AtRest ∧ fidx 0x00 = none ∧ fidx 0xFF = none ∧ ([] : List Byte).length ≠ 1 ∧
    ([0x21, 0x21] : List Byte).length ≠ 1 := by decide
theorem witness_EncodeAnswersThePacket :
    (idle [] []).AtRest ∧ (idle [] []).level = .transaction ∧
    (List.replicate 32 (0xFF : Byte)).length ≤ (idle [] []).par.pmax := by decide
theorem witness_SendAppendsThePacket :
    (idle [none] []).AtRest ∧ (idle [none] []).level = .transaction ∧
    (List.replicate 32 (0xFF : Byte)).length ≤ (idle [none] []).par.pmax ∧ (idle [none] []).drawNow = none := by decide
/-- A failure before the first byte and one after the last of the 26 bytes (D-T3, D-T6). -/
theorem witness_SendFailsWithAPrefix :
    (idle [some 26] []).AtRest ∧ (idle [some 26] []).level = .transaction ∧
    ([0x01] : List Byte).length ≤ (idle [some 26] []).par.pmax ∧ (idle [some 26] []).drawNow = some 26 ∧
    26 ≤ (encodePacket 0x01 [0x01]).length ∧ (idle [some 0] []).drawNow = some 0 := by decide
theorem witness_WrsegSendsTheMasks :
    (idle [none] []).AtRest ∧ (idle [none] []).level = .transaction ∧ (idle [none] []).drawNow = none ∧
    (0x7F : Byte).toNat ≤ 0x7F ∧ (0x00 : Byte).toNat ≤ 0x7F := by decide
theorem witness_WrdigSendsTheDigits :
    (idle [none] []).AtRest ∧ (idle [none] []).level = .transaction ∧ (idle [none] []).drawNow = none := by decide
/-- The empty string and a string of three. -/
theorem witness_WrstrSendsTheString :
    (idle [none] []).AtRest ∧ (idle [none] []).level = .transaction ∧ (idle [none] []).drawNow = none ∧
    ([] : List Byte).length ≤ 3 ∧ ([] : List Byte) ++ List.replicate (3 - 0) 0x20 = [0x20, 0x20, 0x20] ∧
    ([0x30, 0x5A, 0x7A] : List Byte).length ≤ 3 ∧
    ([0x30, 0x5A, 0x7A] : List Byte) ++ List.replicate (3 - 3) 0x20 = [0x30, 0x5A, 0x7A] ∧
    fidx 0x20 = some 0 ∧ fidx 0x30 = some 1 ∧ fidx 0x5A = some 36 ∧ fidx 0x7A = some 36 := by decide
theorem witness_Seg3OnThePortIsIllegal : (idle [] []).AtRest := by decide
/-- Each operation one operand past the shape it admits. -/
theorem witness_MalformedDescriptorsAreRefused :
    (idle [] []).AtRest ∧ ∀ i ∈ [Instr.lookup 0x00 [], .lookup 0x00 [0x41, 0x42], .encode 0x00 (List.replicate 33 0x00),
      .send 0x00 (List.replicate 33 0x00), .wrseg 0x00 [0x00, 0x00], .wrseg 0x00 [0x00, 0x00, 0x00, 0x00],
      .wrdig 0x00 [0x00, 0x00], .wrstr 0x00 [0x41, 0x42, 0x43, 0x44], .seg3 0x00 []],
      i.wellShaped (idle [] []).par.pmax = false := by decide
theorem witness_OutOfRangeExactly :
    (idle [] []).AtRest ∧ 0x80 ≤ (0x80 : Byte).toNat ∧ 0x0F ≤ (0x0F : Byte).toNat ∧
    (idle [] []).level = .transaction ∧
    seen (exec (.wrseg 0x01 [0x00, 0x80, 0x00]) (idle [] [])) = some (some ⟨.outOfRange, []⟩, []) := by decide
theorem witness_UnsupportedStringIsRefused :
    (idle [] []).AtRest ∧ ([0x41, 0x21, 0x43] : List Byte).length ≤ 3 ∧ (0x21 : Byte) ∈ ([0x41, 0x21, 0x43] : List Byte) ∧
    fidx 0x21 = none := by decide
theorem witness_DriverCommandsExpand :
    (0x7F : Byte).toNat ≤ 0x7F ∧ ([] : List Byte).length ≤ 3 ∧
    ([] : List Byte) ++ List.replicate (3 - 0) 0x20 = [0x20, 0x20, 0x20] ∧ fidx 0x20 = some 0 := by decide
theorem witness_StringsPadAndFold : ([] : List Byte).length ≤ 3 ∧ ([0x41, 0x42, 0x43] : List Byte).length ≤ 3 := by decide
theorem witness_EveryCommandEndsWithAStatusOfItsRow :
    (idle [] []).level = .transaction ∧ (idle [] []).phase = .idle := by decide
theorem witness_ValidationFailureSendsNothing :
    (idle [] []).level = .transaction ∧ (idle [] []).AtRest ∧
    seen (exec (.wrseg 0x01 [0x80, 0x00, 0x00]) (idle [] [])) = some (some ⟨.outOfRange, []⟩, []) ∧
    Status.outOfRange ≠ .ok ∧ Status.outOfRange ≠ .transportError := by decide
theorem witness_TransportErrorExactly :
    (idle [some 7] []).level = .transaction ∧
    (seen (exec (.send 0x01 [0x01]) (idle [some 7] []))).map Prod.fst = some (some ⟨.transportError, []⟩) := by decide
theorem witness_NothingPassesBetweenCommands :
    (idle [none] []).level = .transaction ∧ (idle [none] [0x00]).level = .transaction ∧
    (idle [none] []).par = (idle [none] [0x00]).par ∧ (idle [none] []).drawNow = (idle [none] [0x00]).drawNow := by decide
theorem witness_AcceptanceStartsTheSequencer :
    (idleByte []).AtRest ∧ (idleByte []).level = .byte ∧
    (List.replicate 32 (0x00 : Byte)).length ≤ (idleByte []).par.pmax := by decide
theorem witness_StepRunsTheDecodedCommand :
    (idle [] [0x00, 0x00, 0x01, 0x41, 0x05]).phase = .idle ∧
    (idle [] [0x00, 0x00, 0x01, 0x41, 0x05]).pinsNow.rst = false ∧
    (idle [] [0x00, 0x00, 0x01, 0x41, 0x05]).pinsNow.valid = true ∧
    decode (idle [] [0x00, 0x00, 0x01, 0x41, 0x05]).cmdPort = .ok (.lookup 0x00 [0x41], [0x05]) := by decide
/-- The codes 06, AE and FF, with no operand and with one. -/
theorem witness_ReservedCodesAreIllegal :
    (idle [] [0x06, 0x00, 0x00]).AtRest ∧ (idle [] [0x06, 0x00, 0x00]).pinsNow.rst = false ∧
    (idle [] [0x06, 0x00, 0x00]).pinsNow.valid = true ∧ (idle [] [0xAE, 0x01, 0x01, 0x09]).pinsNow.valid = true ∧
    ([] : List Byte).length ≤ 255 ∧ 0x06 ≤ (0x06 : Byte).toNat ∧ 0x06 ≤ (0xAE : Byte).toNat ∧ 0x06 ≤ (0xFF : Byte).toNat ∧
    (idle [] [0x06, 0x00, 0x00]).cmdPort = 0x06 :: 0x00 :: BitVec.ofNat 8 ([] : List Byte).length :: ([] ++ []) ∧
    (idle [] [0xAE, 0x01, 0x01, 0x09]).cmdPort = 0xAE :: 0x01 :: BitVec.ofNat 8 [(0x09 : Byte)].length :: ([0x09] ++ []) := by
  decide
/-- A whole descriptor with `valid` low, and half a one with `valid` high. -/
theorem witness_IdleWithoutACommand :
    (idleByte [⟨false, false, true, false⟩]).phase = .idle ∧
    (idleByte [⟨false, false, true, false⟩]).pinsNow.rst = false ∧
    ({ idleByte [⟨false, false, true, false⟩] with cmdPort := [0x02, 0x00, 0x00] } : State).pinsNow.valid = false ∧
    (idle [] [0x02, 0x01, 0x01]).phase = .idle ∧ (idle [] [0x02, 0x01, 0x01]).pinsNow.rst = false ∧
    decode (idle [] [0x02, 0x01, 0x01]).cmdPort = .error .incomplete := by decide
theorem witness_BusyPortAcceptsNothing :
    (busyAt .txPort .hdr 0 false false ready).busy = true ∧ (busyAt .txPort .hdr 0 false false ready).pinsNow.rst = false ∧
    seen (step (busyAt .txPort .hdr 0 false false ready)) = some (none, [0xFF]) := by decide
/-- Clause by clause: an error with tx_ready high and with it low, a wait, a byte to each destination. -/
theorem witness_WhenTheSequencerRuns :
    (∀ r, (busyAt .txPort .hdr 0 false false ⟨false, true, r, true⟩).busy = true ∧
      (busyAt .txPort .hdr 0 false false ⟨false, true, r, true⟩).pinsNow.rst = false ∧
      (busyAt .txPort .hdr 0 false false ⟨false, true, r, true⟩).dest = .txPort ∧
      (busyAt .txPort .hdr 0 false false ⟨false, true, r, true⟩).pinsNow.txErr = true) ∧
    ((busyAt .txPort .trl 4 false true ⟨false, true, false, false⟩).busy = true ∧
      (busyAt .txPort .trl 4 false true ⟨false, true, false, false⟩).pinsNow.rst = false ∧
      (busyAt .txPort .trl 4 false true ⟨false, true, false, false⟩).dest = .txPort ∧
      (busyAt .txPort .trl 4 false true ⟨false, true, false, false⟩).pinsNow.txErr = false ∧
      (busyAt .txPort .trl 4 false true ⟨false, true, false, false⟩).pinsNow.txReady = false) ∧
    (busyAt .txPort .hdr 0 false false ready).CanEmit ∧
    (busyAt .resultPort .hdr 0 false false ⟨false, true, false, true⟩).CanEmit := by decide
/-- Idle with the same `valid`, and with the result port as destination with another. -/
theorem witness_PinsIgnoredUnlessTransmitting :
    (idle [] []).txValid = false ∧ (idle [] []).phase = .idle ∧
    ready.rst = false ∧ (⟨false, true, false, true⟩ : Pins).rst = false ∧
    ready.valid = (⟨false, true, false, true⟩ : Pins).valid ∧
    (busyAt .resultPort .hdr 0 false false ready).txValid = false ∧
    (busyAt .resultPort .hdr 0 false false ready).phase ≠ .idle ∧
    (⟨false, false, false, true⟩ : Pins).rst = false := by decide
/-- The clauses at the address, at the first and the last payload byte, and at the checksum. -/
theorem witness_FrameView :
    (busyAt .txPort .body 0 false false ready).plen ≤ (busyAt .txPort .body 0 false false ready).pbuf.length ∧
    (busyAt .txPort .body 0 false false ready).idx = 0 ∧
    (1 ≤ (busyAt .txPort .body 1 false false ready).idx ∧
      (busyAt .txPort .body 1 false false ready).idx ≤ (busyAt .txPort .body 1 false false ready).plen) ∧
    (busyAt .txPort .body 2 false false ready).idx = (busyAt .txPort .body 2 false false ready).plen + 1 := by decide
theorem witness_HeaderStep :
    ∀ k ∈ [0, 3, 4], (busyAt .txPort .hdr k false false ready).CanEmit ∧
      (busyAt .txPort .hdr k false false ready).phase = .hdr ∧
      [0xFF, (busyAt .txPort .hdr k false false ready).addr, (busyAt .txPort .hdr k false false ready).addr, 0xFF,
        0xFF][(busyAt .txPort .hdr k false false ready).idx]? = some (0xFF : Byte) := by decide
/-- The payload byte FF before and after the first of its pair, the address byte and the checksum byte. -/
theorem witness_BodyStep :
    (∀ e, (busyAt .txPort .body 1 e false ready).CanEmit ∧ (busyAt .txPort .body 1 e false ready).phase = .body ∧
      frameByte (busyAt .txPort .body 1 e false ready) = some 0xFF ∧ (busyAt .txPort .body 1 e false ready).esc = e) ∧
    0xFE ≤ (0xFF : Byte).toNat ∧
    ((busyAt .txPort .body 0 false false ready).CanEmit ∧
      frameByte (busyAt .txPort .body 0 false false ready) = some 0x01 ∧ (0x01 : Byte).toNat < 0xFE) ∧
    ((busyAt .txPort .body 2 false true ready).CanEmit ∧
      frameByte (busyAt .txPort .body 2 false true ready) = some 0x00) := by decide
theorem witness_TrailerStep :
    ∀ pass, ∀ k ∈ [0, 1, 4], (busyAt .txPort .trl k false pass ready).CanEmit ∧
      (busyAt .txPort .trl k false pass ready).phase = .trl ∧
      [0xFF, 0xFF, (busyAt .txPort .trl k false pass ready).addr, (busyAt .txPort .trl k false pass ready).addr,
        0xFF][(busyAt .txPort .trl k false pass ready).idx]? = some (0xFF : Byte) ∧
      (busyAt .txPort .trl k false pass ready).pass = pass := by decide
theorem witness_EmittedByteGoesWhereDestSays :
    (busyAt .txPort .hdr 0 false false ready).dest = .txPort ∧
    (busyAt .resultPort .hdr 0 false false ready).dest = .resultPort := by decide
theorem witness_ResetInputClearsTheMachine :
    (busyAt .txPort .body 1 true true ⟨true, true, true, true⟩).pinsNow.rst = true := by decide
/-- A state in the middle of an escape pair, and the step from it. -/
theorem witness_EveryStepKeepsTheInvariant :
    (busyAt .txPort .body 1 true true ready).Inv ∧
    seen (step (busyAt .txPort .body 1 true true ready)) = some (none, [0x01]) := by decide
theorem witness_WellFormedStatesNeverStop : (busyAt .txPort .trl 4 false true ready).Inv := by decide
theorem witness_TransmitHistoryOnlyGrows :
    (busyAt .txPort .hdr 0 false false ready).pinsNow.rst = false ∧ (busyAt .txPort .hdr 0 false false ready).level = .byte ∧
    seen (step (busyAt .txPort .hdr 0 false false ready)) = some (none, [0xFF]) := by decide
theorem witness_NoStepWritesTheParameters : ∃ t, step (idle [] []) = .next t := ⟨_, rfl⟩

/-- Pins that stay ready for `n` steps read as ready in each of them. -/
theorem pinsAt_replicate (s : State) (n k : Nat) (h : s.pins = List.replicate n ready) (hk : k < n) :
    s.pinsAt k = ready := by
  simp [State.pinsAt, h, hk]

theorem readyCount_replicate (s : State) (n : Nat) (h : s.pins = List.replicate n ready) (m : Nat) (hm : m ≤ n) :
    s.readyCount m = m := by
  induction m with
  | zero => rfl
  | succ m ih => simp [readyCount_succ, ih (by omega), pinsAt_replicate s n m h (by omega), ready]

/-- The packet of address 01 and payload `FF` has 28 bytes (S2). -/
theorem packet_length : (encodePacket 0x01 [0xFF]).length = 28 := by decide

theorem witness_SendInProgressHasSentAPrefix :
    (idleByte (List.replicate 27 ready)).AtRest ∧ (idleByte (List.replicate 27 ready)).level = .byte ∧
    (idleByte (List.replicate 27 ready)).SizesOk ∧ (idleByte (List.replicate 27 ready)).result = none ∧
    [(0xFF : Byte)].length ≤ (idleByte (List.replicate 27 ready)).par.pmax ∧
    (idleByte (List.replicate 27 ready)).QuietFor 27 ∧
    (idleByte (List.replicate 27 ready)).readyCount 27 < (encodePacket 0x01 [0xFF]).length := by
  refine ⟨by decide, rfl, by decide, rfl, by decide, fun k hk => ?_, ?_⟩
  · rw [pinsAt_replicate _ 27 k rfl hk]
    exact ⟨rfl, rfl⟩
  · rw [readyCount_replicate _ 27 rfl 27 (by omega), packet_length]
    omega

theorem witness_SendRefinesTheFunction :
    (idleByte (List.replicate 28 ready)).AtRest ∧ (idleByte (List.replicate 28 ready)).level = .byte ∧
    (idleByte (List.replicate 28 ready)).SizesOk ∧
    [(0xFF : Byte)].length ≤ (idleByte (List.replicate 28 ready)).par.pmax ∧
    (idleByte (List.replicate 28 ready)).QuietFor (27 + 1) ∧
    (idleByte (List.replicate 28 ready)).readyCount 27 + 1 = (encodePacket 0x01 [0xFF]).length ∧
    ((idleByte (List.replicate 28 ready)).pinsAt 27).txReady = true := by
  refine ⟨by decide, rfl, by decide, by decide, fun k hk => ?_, ?_, ?_⟩
  · rw [pinsAt_replicate _ 28 k rfl hk]
    exact ⟨rfl, rfl⟩
  · rw [readyCount_replicate _ 28 rfl 27 (by omega), packet_length]
  · rw [pinsAt_replicate _ 28 27 rfl (by omega)]
    rfl

theorem witness_EncodeRefinesTheFunction :
    (idleByte (List.replicate 28 ready)).AtRest ∧ (idleByte (List.replicate 28 ready)).level = .byte ∧
    (idleByte (List.replicate 28 ready)).SizesOk ∧
    [(0xFF : Byte)].length ≤ (idleByte (List.replicate 28 ready)).par.pmax ∧
    (idleByte (List.replicate 28 ready)).NoResetFor (encodePacket 0x01 [0xFF]).length := by
  refine ⟨by decide, rfl, by decide, by decide, fun k hk => ?_⟩
  rw [packet_length] at hk
  rw [pinsAt_replicate _ 28 k rfl hk]
  rfl

/-- An error in the first step and one after two bytes. -/
theorem witness_AbortedSendLeavesAPrefix :
    (idleByte [ready, ready, ⟨false, true, true, true⟩]).AtRest ∧ (idleByte [ready, ready, ⟨false, true, true, true⟩]).level = .byte ∧
    (idleByte [ready, ready, ⟨false, true, true, true⟩]).SizesOk ∧
    [(0xFF : Byte)].length ≤ (idleByte [ready, ready, ⟨false, true, true, true⟩]).par.pmax ∧
    (∀ k < 2, ((idleByte [ready, ready, ⟨false, true, true, true⟩]).pinsAt k).rst = false ∧
      ((idleByte [ready, ready, ⟨false, true, true, true⟩]).pinsAt k).txErr = false) ∧
    (idleByte [ready, ready, ⟨false, true, true, true⟩]).readyCount 2 < (encodePacket 0x01 [0xFF]).length ∧
    ((idleByte [ready, ready, ⟨false, true, true, true⟩]).pinsAt 2).rst = false ∧
    ((idleByte [ready, ready, ⟨false, true, true, true⟩]).pinsAt 2).txErr = true ∧
    ((idleByte [⟨false, true, true, true⟩]).pinsAt 0).txErr = true := by decide

theorem witness_TheTwoLevelsAgree :
    (idleByte (List.replicate 1048 ready)).Inv ∧ (idleByte (List.replicate 1048 ready)).AtRest ∧
    (idleByte (List.replicate 1048 ready)).level = .byte ∧
    ∀ k < 1048, ((idleByte (List.replicate 1048 ready)).pinsAt k).rst = false ∧
      ((idleByte (List.replicate 1048 ready)).pinsAt k).txErr = false ∧
      ((idleByte (List.replicate 1048 ready)).pinsAt k).txReady = true := by
  refine ⟨⟨by decide, by decide, by decide⟩, by decide, rfl, fun k hk => ?_⟩
  rw [pinsAt_replicate _ 1048 k rfl hk]
  exact ⟨rfl, rfl, rfl⟩

end Sys2Proof.Tests
end

