-- ==== Sys2Proof/Proofs/Scope.lean ====
section
/-! PROOFS. The statements of spec/00_scope.md: a well-formed state never stops (R14), and the byte level refines the
transaction level (R6, R161). The rules about one step come first, then the run that empties the sequencer. -/

namespace Sys2Proof.Proofs.Scope

open Sys2Proof Sys2Proof.Machine

/-! ## One step of a command in progress -/

/-- With these pin levels the destination takes the byte offered to it, and reset is not asserted: what `CanEmit` asks
of the pins (spec/41_packet_codec.md R155). -/
def Takes (d : Dest) (p : Pins) : Prop :=
  p.rst = false ∧ (d = .resultPort ∨ d = .txPort ∧ p.txErr = false ∧ p.txReady = true)

theorem canEmit_iff (s : State) : s.CanEmit ↔ s.busy = true ∧ Takes s.dest s.pinsNow := Iff.rfl

/-- R155, R247: the sequencer aborts, waits, or emits a byte. -/
theorem sequencerStep_modes (s : State) :
    (s.dest = .txPort ∧ s.pinsNow.txErr = true ∧ sequencerStep s = .next (raise .transportError (tick s))) ∨
    (s.dest = .txPort ∧ s.pinsNow.txErr = false ∧ s.pinsNow.txReady = false ∧ sequencerStep s = .next (tick s)) ∨
    ((s.dest = .resultPort ∨ s.dest = .txPort ∧ s.pinsNow.txErr = false ∧ s.pinsNow.txReady = true) ∧
      sequencerStep s = emitByte (tick s)) := by
  unfold sequencerStep
  cases hd : s.dest with
  | resultPort => exact .inr (.inr ⟨.inl rfl, rfl⟩)
  | txPort =>
    cases he : s.pinsNow.txErr with
    | true => exact .inl ⟨rfl, rfl, rfl⟩
    | false =>
      cases hr : s.pinsNow.txReady with
      | false => exact .inr (.inl ⟨rfl, rfl, rfl, rfl⟩)
      | true => exact .inr (.inr ⟨.inr ⟨rfl, rfl, rfl⟩, rfl⟩)

theorem step_of_canEmit {s : State} (h : s.CanEmit) : step s = emitByte (tick s) := by
  obtain ⟨hb, hr, hd⟩ := h
  rw [step_of_busy hr hb]
  rcases sequencerStep_modes s with ⟨htx, he, _⟩ | ⟨htx, _, hw, _⟩ | ⟨_, hs⟩
  · simp [htx, he] at hd
  · simp [htx, hw] at hd
  · exact hs

/-- The invariant speaks of none of the fields that the passing of the inputs writes. -/
theorem tick_inv {s : State} (hs : s.Inv) : (tick s).Inv := hs

@[simp] theorem tick_left (s : State) : (tick s).left = s.left := rfl

theorem busy_iff (s : State) : s.busy = true ↔ s.phase ≠ .idle := by simp [State.busy]

/-- While the destination takes the byte, a step takes the first byte off what is left of the packet. -/
theorem step_emits {s : State} {b : Byte} {l : List Byte} (hs : s.Inv) (hb : s.busy = true) (hl : s.left = b :: l)
    (htake : Takes s.dest s.pinsNow) : ∃ u, step s = .next u ∧ Emitted (tick s) u b l := by
  rw [step_of_canEmit ((canEmit_iff s).2 ⟨hb, htake⟩)]
  obtain ⟨c, rest, u, hl', hu, hem⟩ := emitByte_emits (tick_inv hs) ((busy_iff s).1 hb)
  obtain ⟨rfl, rfl⟩ := List.cons.inj (hl.symm.trans hl')
  exact ⟨u, hu, hem⟩

theorem sequencerStep_goes_on {s : State} (hs : s.Inv) (hb : s.busy = true) : ∃ t, sequencerStep s = .next t := by
  rcases sequencerStep_modes s with ⟨_, _, h⟩ | ⟨_, _, _, h⟩ | ⟨_, h⟩
  · exact ⟨_, h⟩
  · exact ⟨_, h⟩
  · obtain ⟨_, _, t, _, ht, _⟩ := emitByte_emits (tick_inv hs) ((busy_iff s).1 hb)
    exact ⟨t, h.trans ht⟩

/-- Settles O53: only the sequencer can stop, and in a well-formed state it goes on. -/
theorem wellFormedStatesNeverStop : Obligations.WellFormedStatesNeverStop := by
  intro s hs
  unfold step
  split
  next => exact ⟨_, rfl⟩
  next =>
    split
    next hbusy => exact sequencerStep_goes_on hs hbusy
    next =>
      split
      next => exact ⟨_, rfl⟩
      next d rest _ =>
        split
        next i _ =>
          obtain ⟨t, ht, _⟩ := exec_cases i (accept d rest s)
          exact ⟨t, ht⟩
        next => exact ⟨_, rfl⟩

/-! ## The run that empties the sequencer -/

/-- R160, R161: from a well-formed state with `b :: l` left to emit, to a destination that takes every byte, as many
steps as there are bytes end the command with OK, the bytes where DEST sends them. -/
theorem run_empties_sequencer (l : List Byte) : ∀ {s : State} (b : Byte), s.Inv → s.busy = true → s.left = b :: l →
    (∀ k < l.length + 1, Takes s.dest (s.pinsAt k)) →
    ∃ u, run (l.length + 1) s = .next u ∧
      u.tx = s.tx ++ (if s.dest = .txPort then b :: l else []) ∧
      u.result = some ⟨.ok, s.rdata ++ if s.dest = .resultPort then b :: l else []⟩ ∧
      u.AtRest ∧ u.cmdPort = s.cmdPort := by
  induction l with
  | nil =>
    intro s b hs hb hl htakes
    obtain ⟨u, hstep, hem⟩ := step_emits hs hb hl (pinsAt_zero s ▸ htakes 0 (by simp))
    obtain ⟨hrest, hres⟩ := hem.ends rfl
    exact ⟨u, run_succ 0 hstep, hem.tx, hres, hrest, untouched_cmdPort (s := tick s) hem.untouched⟩
  | cons c l ih =>
    intro s b hs hb hl htakes
    obtain ⟨t, hstep, hem⟩ := step_emits hs hb hl (pinsAt_zero s ▸ htakes 0 (by simp))
    obtain ⟨hbusy, _, hrdata⟩ := hem.goesOn (by simp)
    have hdest : t.dest = s.dest := untouched_dest (s := tick s) hem.untouched
    have hport : t.cmdPort = s.cmdPort := untouched_cmdPort (s := tick s) hem.untouched
    have hpins := pinsAt_of_tick (s := s) (untouched_pins hem.untouched) (untouched_clock hem.untouched)
    obtain ⟨u, hrun, htx, hres, hrest, hport'⟩ := ih c hem.inv hbusy hem.left (fun k hk => by
      rw [hdest, hpins]
      exact htakes (k + 1) (by simpa using hk))
    refine ⟨u, (run_succ _ hstep).trans hrun, ?_, ?_, hrest, hport'.trans hport⟩
    · rw [htx, hem.tx, hdest, tick_tx, tick_dest]
      split <;> simp
    · rw [hres, hrdata, hdest, tick_rdata, tick_dest]
      split <;> simp

/-- Acceptance of a packet command leaves a well-formed state (spec/10_state.md R23, R40). -/
theorem startPacket_inv {s : State} (e : Dest) (a : Byte) {p : List Byte} (hs : s.Inv) (hp : p.length ≤ s.par.pmax) :
    (startPacket e a p s).Inv := by
  obtain ⟨hn, hbuf, _⟩ := hs.1
  refine ⟨⟨hn, ?_, hp⟩, ⟨by simp, by simp, by simp, by simp⟩, by simp⟩
  simp only [startPacket_pbuf, startPacket_par, List.length_append, List.length_drop, hbuf]
  omega

theorem encodePacket_ne_nil (a : Byte) (p : List Byte) : encodePacket a p ≠ [] := by
  simp [encodePacket, wrapped_ne_nil]

/-- R161 for a destination that takes every byte: from acceptance, as many steps as the packet has bytes. -/
theorem run_startPacket {s : State} (e : Dest) (a : Byte) {p : List Byte} (hs : s.Inv) (hp : p.length ≤ s.par.pmax)
    (htakes : ∀ k < (encodePacket a p).length, Takes e (s.pinsAt k)) :
    ∃ u, run (encodePacket a p).length (startPacket e a p s) = .next u ∧
      u.tx = s.tx ++ (if e = .txPort then encodePacket a p else []) ∧
      u.result = some ⟨.ok, if e = .resultPort then encodePacket a p else []⟩ ∧
      u.AtRest ∧ u.cmdPort = s.cmdPort := by
  have hleft := startPacket_left e a p s
  obtain ⟨b, l, hbl⟩ := List.exists_cons_of_ne_nil (encodePacket_ne_nil a p)
  rw [hbl] at hleft htakes ⊢
  exact run_empties_sequencer l b (startPacket_inv e a hs hp) rfl hleft htakes

/-! ## The length of a packet (spec/41_packet_codec.md R153) -/

theorem stuff_length_le (f : List Byte) : (stuff f).length ≤ 2 * f.length := by
  induction f with
  | nil => simp
  | cons b f ih =>
    have hb : (stuff1 b).length ≤ 2 := by
      unfold stuff1
      split
      · simp
      · split <;> simp
    simp only [stuff_cons, List.length_append, List.length_cons]
    omega

theorem encodePacket_length_le (a : Byte) (p : List Byte) : (encodePacket a p).length ≤ 4 * p.length + 28 := by
  have h := stuff_length_le (frame a p)
  simp only [frame_length] at h
  simp only [encodePacket, wrapped, escapedBody, List.length_append, header_length, trailer_length]
  omega

/-- 1048 is the bound at the greatest PMAX. -/
theorem encodePacket_length_le_1048 (a : Byte) {p : List Byte} {par : Params} (hp : p.length ≤ par.pmax) :
    (encodePacket a p).length ≤ 1048 := by
  have h := encodePacket_length_le a p
  have hmax := pmax_le_255 par
  omega

/-! ## What a packet command does at each level -/

/-- A packet on its way to a destination: `transmit` and `returnPacket` as one operation. -/
def sendTo : Dest → Byte → List Byte → State → State
  | .txPort => transmit
  | .resultPort => returnPacket

theorem sendTo_of_byte {s : State} (e : Dest) (a : Byte) (p : List Byte) (h : s.level = .byte) :
    sendTo e a p s = startPacket e a p s := by
  cases e with
  | txPort => simp [sendTo, transmit, h]
  | resultPort => simp [sendTo, returnPacket, h]

/-- At the transaction level under the draw `none` the whole packet goes where `e` says (spec/41_packet_codec.md R148,
spec/42_bus_transport.md R182). -/
theorem sendTo_of_transaction {s : State} (e : Dest) (a : Byte) (p : List Byte) (h : s.level = .transaction)
    (hd : s.drawNow = none) :
    (sendTo e a p s).tx = s.tx ++ (if e = .txPort then encodePacket a p else []) ∧
    (sendTo e a p s).result = some ⟨.ok, if e = .resultPort then encodePacket a p else []⟩ := by
  cases e with
  | txPort => simp [sendTo, transmit, h, handOver_eq, hd]
  | resultPort => simp [sendTo, returnPacket, h]

/-- `exec_plan` with one case for the packets: in all states with these parameters a command ends with the same result
or sends the same packet to the same destination. -/
theorem exec_ends_or_sends (i : Instr) (par : Params) :
    (∃ k l, ∀ u : State, u.par = par → exec i u = .next (finish k l u)) ∨
    (∃ e p, p.length ≤ par.pmax ∧ ∀ u : State, u.par = par → exec i u = .next (sendTo e i.addr p u)) := by
  rcases exec_plan i par with h | ⟨p, hp, h⟩ | ⟨p, hp, h⟩
  · exact .inl h
  · exact .inr ⟨.txPort, p, hp, h⟩
  · exact .inr ⟨.resultPort, p, hp, h⟩

/-- Settles O60: both levels end at once alike or send the same packet to the same destination, and the sequencer's run
hands over just that packet. -/
theorem theTwoLevelsAgree : Obligations.TheTwoLevelsAgree := by
  intro i s hs _ hbyte hready
  have htakes (e : Dest) (k : Nat) (hk : k < 1048) : Takes e (s.pinsAt k) := by
    obtain ⟨hrst, herr, hrdy⟩ := hready k hk
    cases e with
    | txPort => exact ⟨hrst, .inr ⟨rfl, herr, hrdy⟩⟩
    | resultPort => exact ⟨hrst, .inl rfl⟩
  rcases exec_ends_or_sends i s.par with ⟨k, l, hexec⟩ | ⟨e, p, hp, hexec⟩
  · exact ⟨_, _, finish k l s, 0, hexec _ rfl, hexec s rfl, by omega, rfl, rfl, rfl, rfl, rfl, rfl, rfl, rfl⟩
  · have hlen := encodePacket_length_le_1048 i.addr hp
    have hstart := hexec s rfl
    rw [sendTo_of_byte e i.addr p hbyte] at hstart
    obtain ⟨u, hrun, htx, hres, hrest, _⟩ := run_startPacket e i.addr hs hp fun k hk => htakes e k (hk.trans_le hlen)
    obtain ⟨hvtx, hvres⟩ := sendTo_of_transaction e i.addr p
      (s := { s with level := .transaction, draws := none :: s.draws }) rfl rfl
    exact ⟨_, _, u, _, hexec _ rfl, hstart, hlen, hrun, htx.trans hvtx.symm, hres.trans hvres.symm, hrest⟩

end Sys2Proof.Proofs.Scope
end

/-! PROOFS. The statements of spec/10_state.md: what every step keeps (R21, R26, R40, R55), when the ports are read
(R33, R35, R36), and what a command cannot learn from the ones before it (R39). What an accepted command can do and when
an idle SFF accepts one come first, then the statements. -/

namespace Sys2Proof.Proofs.StateRules

open Sys2Proof Sys2Proof.Machine Sys2Proof.Proofs.Scope

/-! ## What an accepted command can do -/

/-- `sendTo` at each level: the sequencer is started, or the command ends at once with `tx` longer by what the channel
took. -/
theorem sendTo_cases (e : Dest) (a : Byte) (p : List Byte) (s : State) :
    (s.level = .byte ∧ sendTo e a p s = startPacket e a p s) ∨
    (s.level = .transaction ∧ ∃ k l sent draws,
      sendTo e a p s = finish k l { startPacket e a p s with tx := s.tx ++ sent, draws := draws }) := by
  cases hlevel : s.level with
  | byte => exact .inl ⟨rfl, sendTo_of_byte e a p hlevel⟩
  | transaction =>
    refine .inr ⟨rfl, ?_⟩
    cases e with
    | txPort =>
      simp only [sendTo, transmit, hlevel, handOver_eq]
      split
      · exact ⟨_, _, _, _, rfl⟩
      · exact ⟨_, _, _, _, rfl⟩
    | resultPort =>
      refine ⟨.ok, encodePacket a p, [], s.draws, ?_⟩
      simp only [sendTo, returnPacket, hlevel, List.append_nil]
      rfl

/-- A command ends at once or sends one packet of at most PMAX payload bytes. -/
theorem exec_next_cases {i : Instr} {s t : State} (h : exec i s = .next t) :
    (∃ k l, t = finish k l s) ∨ (∃ e p, p.length ≤ s.par.pmax ∧ t = sendTo e i.addr p s) := by
  rcases exec_ends_or_sends i s.par with ⟨k, l, hexec⟩ | ⟨e, p, hp, hexec⟩
  · exact .inl ⟨k, l, Host.Outcome.next.inj (h.symm.trans (hexec s rfl))⟩
  · exact .inr ⟨e, p, hp, Host.Outcome.next.inj (h.symm.trans (hexec s rfl))⟩

theorem exec_par_level {i : Instr} {s t : State} (h : exec i s = .next t) : t.par = s.par ∧ t.level = s.level := by
  rcases exec_next_cases h with ⟨k, l, rfl⟩ | ⟨e, p, _, rfl⟩
  · exact ⟨rfl, rfl⟩
  · rcases sendTo_cases e i.addr p s with ⟨_, hsend⟩ | ⟨_, k, l, sent, draws, hsend⟩
    · rw [hsend]
      exact ⟨rfl, rfl⟩
    · rw [hsend]
      exact ⟨rfl, rfl⟩

/-- A command only appends to `tx`, and at the byte level its acceptance emits nothing (spec/41_packet_codec.md R156). -/
theorem exec_tx {i : Instr} {s t : State} (h : exec i s = .next t) :
    ∃ sent : List Byte, t.tx = s.tx ++ sent ∧ (s.level = .byte → sent = []) := by
  rcases exec_next_cases h with ⟨k, l, rfl⟩ | ⟨e, p, _, rfl⟩
  · exact ⟨[], by simp, fun _ => rfl⟩
  · rcases sendTo_cases e i.addr p s with ⟨_, hsend⟩ | ⟨hlevel, k, l, sent, draws, hsend⟩
    · exact ⟨[], by simp [hsend], fun _ => rfl⟩
    · exact ⟨sent, by simp [hsend], fun hbyte => by simp [hlevel] at hbyte⟩

/-! ## What keeps a state well-formed -/

/-- The end of a command puts the sequencer at rest, so only the registers' sizes are asked for. -/
theorem finish_inv {s : State} (k : Status) (l : List Byte) (hs : s.SizesOk) : (finish k l s).Inv :=
  ⟨hs, ⟨fun _ => ⟨rfl, rfl, rfl, rfl, rfl⟩, by simp, by simp, fun _ => rfl⟩, by simp⟩

theorem assertReset_inv (s : State) : (assertReset s).Inv :=
  ⟨⟨rfl, by simp, by simp⟩, ⟨fun _ => ⟨rfl, rfl, rfl, rfl, rfl⟩, by simp, by simp, fun _ => rfl⟩, by simp⟩

theorem phase_of_not_busy {s : State} (h : s.busy = false) : s.phase = .idle := by
  simpa [State.busy] using h

/-- Acceptance writes ADDR, of which the frame view and CSUM depend, but only in IDLE, where neither is in use. -/
theorem accept_inv {d : Descriptor} {s : State} (rest : List Byte) (hs : s.Inv) (hidle : s.phase = .idle)
    (hn : d.opnd.length = d.n.toNat) : (accept d rest s).Inv := by
  obtain ⟨⟨_, hbuf, hplen⟩, ⟨hrest, _, _, hrdata⟩, _⟩ := hs
  exact ⟨⟨hn, hbuf, hplen⟩, ⟨hrest, by simp [hidle], by simp [hidle], hrdata⟩, by simp [hidle]⟩

theorem sendTo_inv {s : State} (e : Dest) (a : Byte) {p : List Byte} (hs : s.Inv) (hp : p.length ≤ s.par.pmax) :
    (sendTo e a p s).Inv := by
  have hstart := startPacket_inv e a hs hp
  rcases sendTo_cases e a p s with ⟨_, hsend⟩ | ⟨_, k, l, sent, draws, hsend⟩
  · rw [hsend]
    exact hstart
  · rw [hsend]
    exact finish_inv k l hstart.1

theorem exec_inv {i : Instr} {s t : State} (hs : s.Inv) (h : exec i s = .next t) : t.Inv := by
  rcases exec_next_cases h with ⟨k, l, rfl⟩ | ⟨e, p, hp, rfl⟩
  · exact finish_inv k l hs.1
  · exact sendTo_inv e i.addr hs hp

theorem sequencerStep_inv {s t : State} (hs : s.Inv) (hb : s.busy = true) (h : sequencerStep s = .next t) : t.Inv := by
  rcases sequencerStep_modes s with ⟨_, _, habort⟩ | ⟨_, _, _, hwait⟩ | ⟨_, hemit⟩
  · cases habort.symm.trans h
    exact finish_inv _ _ hs.1
  · cases hwait.symm.trans h
    exact tick_inv hs
  · obtain ⟨b, rest, u, _, hu, hem⟩ := emitByte_emits (tick_inv hs) ((busy_iff s).1 hb)
    cases (hemit.trans hu).symm.trans h
    exact hem.inv

/-- Settles O51: the sequencer's step is the one that needs the invariant, `emitByte_emits`; every other step ends at
rest or before the first byte of a packet that fits PBUF. -/
theorem everyStepKeepsTheInvariant : Obligations.EveryStepKeepsTheInvariant := by
  intro s t hs h
  rcases step_cases h with ⟨_, rfl⟩ | ⟨_, hb, hseq⟩ | ⟨_, _, _, rfl⟩ | ⟨_, hb, d, rest, i, _, hn, _, hexec⟩ |
    ⟨_, hb, d, rest, _, _, hn, _, rfl⟩
  · exact assertReset_inv s
  · exact sequencerStep_inv hs hb hseq
  · exact tick_inv hs
  · exact exec_inv (accept_inv rest hs (phase_of_not_busy hb) hn) hexec
  · exact finish_inv _ _ (accept_inv rest hs (phase_of_not_busy hb) hn).1

/-! ## What a step leaves alone -/

/-- Settles O54: the sequencer adds at most one byte, and only an accepted command at the transaction level adds more. -/
theorem transmitHistoryOnlyGrows : Obligations.TransmitHistoryOnlyGrows := by
  intro s t hr h
  rcases step_cases h with ⟨hr', _⟩ | ⟨_, _, hseq⟩ | ⟨_, _, _, rfl⟩ | ⟨_, _, d, rest, i, _, _, _, hexec⟩ |
    ⟨_, _, d, rest, _, _, _, _, rfl⟩
  · simp [hr] at hr'
  · obtain ⟨_, sent, htx, hlen⟩ := sequencerStep_cases hseq
    exact ⟨sent, htx, fun _ => hlen⟩
  · exact ⟨[], by simp, by simp⟩
  · obtain ⟨sent, htx, hnone⟩ := exec_tx hexec
    exact ⟨sent, htx, fun hbyte => by simp [hnone hbyte]⟩
  · exact ⟨[], by simp, by simp⟩

/-- Settles O55, by the kinds of step. -/
theorem noStepWritesTheParameters : Obligations.NoStepWritesTheParameters := by
  intro s t h
  rcases step_cases h with ⟨_, rfl⟩ | ⟨_, _, hseq⟩ | ⟨_, _, _, rfl⟩ | ⟨_, _, d, rest, i, _, _, _, hexec⟩ |
    ⟨_, _, d, rest, _, _, _, _, rfl⟩
  · exact ⟨rfl, rfl⟩
  · obtain ⟨hkept, _⟩ := sequencerStep_cases hseq
    exact ⟨untouched_par (s := tick s) hkept, untouched_level (s := tick s) hkept⟩
  · exact ⟨rfl, rfl⟩
  · exact exec_par_level (s := accept d rest s) hexec
  · exact ⟨rfl, rfl⟩

theorem ready_eq_not_busy (s : State) : s.ready = !s.busy := by simp [State.ready, State.busy]

theorem ready_iff (s : State) : s.ready = true ↔ s.phase = .idle := by simp [State.ready]

/-- What the command port holds and what acceptance latches is not the sequencer's to write. -/
theorem latched_of_untouched {s u : State} (h : u.untouched = s.untouched) :
    u.cmdPort = s.cmdPort ∧ u.opc = s.opc ∧ u.addr = s.addr ∧ u.n = s.n ∧ u.opnd = s.opnd ∧
    u.pbuf = s.pbuf ∧ u.plen = s.plen ∧ u.dest = s.dest :=
  ⟨untouched_cmdPort h, untouched_opc h, untouched_addr h, untouched_n h, untouched_opnd h, untouched_pbuf h,
    untouched_plen h, untouched_dest h⟩

/-- Settles O41: a busy SFF steps by the sequencer, which writes none of these fields. -/
theorem busyPortAcceptsNothing : Obligations.BusyPortAcceptsNothing := by
  refine ⟨fun s => ⟨ready_eq_not_busy s, ready_iff s⟩, fun s t hb hr h => ?_⟩
  rw [step_of_busy hr hb] at h
  obtain ⟨hkept, _⟩ := sequencerStep_cases h
  exact latched_of_untouched (s := tick s) hkept

/-! ## The command port -/

theorem busy_of_idle {s : State} (h : s.phase = .idle) : s.busy = false := by simp [State.busy, h]

theorem step_of_no_command {s : State} (hr : s.pinsNow.rst = false) (hb : s.busy = false) (hf : fetch s = none) :
    step s = .next (tick s) := by
  simp [step, hr, hb, hf]

/-- Of the pins the command port samples `valid` alone. -/
theorem fetch_congr {s u : State} (hv : s.pinsNow.valid = u.pinsNow.valid) (hc : s.cmdPort = u.cmdPort) :
    fetch s = fetch u := by
  unfold fetch
  rw [hv, hc]

/-- Two idle states that present the same descriptor and differ in nothing that outlasts the step. -/
theorem step_congr_of_idle {s u : State} (hrs : s.pinsNow.rst = false) (hru : u.pinsNow.rst = false)
    (hbs : s.busy = false) (hbu : u.busy = false) (hf : fetch s = fetch u) (ht : tick s = tick u) :
    step s = step u := by
  have haccept (d : Descriptor) (rest : List Byte) : accept d rest s = accept d rest u := by simp only [accept, ht]
  simp [step, hrs, hru, hbs, hbu, hf, ht, haccept]

/-- A busy state whose destination is the result port steps as its sequencer does, whatever the pins. -/
theorem step_of_resultPort {s : State} (hr : s.pinsNow.rst = false) (hb : s.busy = true) (hd : s.dest = .resultPort) :
    step s = emitByte (tick s) :=
  step_of_canEmit ⟨hb, hr, .inl hd⟩

/-- Settles O43: with tx_valid low SFF is idle, where only `valid` is sampled, or emits to the result port, where no
pin is. -/
theorem pinsIgnoredUnlessTransmitting : Obligations.PinsIgnoredUnlessTransmitting := by
  intro s p q rest htx hp hq hvalid
  cases hb : s.busy with
  | false =>
    have hv : p.valid = q.valid := hvalid (phase_of_not_busy hb)
    exact step_congr_of_idle hp hq hb hb (fetch_congr hv rfl) rfl
  | true =>
    have hd : s.dest = .resultPort := by
      cases hd : s.dest with
      | resultPort => rfl
      | txPort => simp [State.txValid, hb, hd] at htx
    have hstep (w : Pins) (hw : w.rst = false) :
        step { s with pins := w :: rest } = emitByte (tick { s with pins := w :: rest }) :=
      step_of_resultPort hw hb hd
    rw [hstep p hp, hstep q hq]
    rfl

theorem decode_eq_ok {bytes rest : List Byte} {i : Instr} (h : decode bytes = .ok (i, rest)) :
    ∃ d, splitDescriptor bytes = some (d, rest) ∧ decodeDescriptor d = .ok i := by
  unfold decode at h
  split at h
  · cases h
  · rename_i d rest' hsplit
    split at h
    · cases h
    · cases h
      exact ⟨d, hsplit, ‹_›⟩

/-- R82: a descriptor that decodes carries the operation code, the address and the operands of its command. -/
theorem decodeDescriptor_eq_ok {d : Descriptor} {i : Instr} (h : decodeDescriptor d = .ok i) :
    d.opc = opcodeOf i ∧ d.addr = i.addr ∧ d.opnd = i.opnd := by
  have hopc (k : Byte) (hk : d.opc.toNat = k.toNat) : d.opc = k := BitVec.eq_of_toNat_eq hk
  unfold decodeDescriptor at h
  split at h
  case h_8 => cases h
  all_goals
    cases h
    exact ⟨hopc _ ‹_›, rfl, rfl⟩

/-- With the count right, it is the command's one descriptor. -/
theorem eq_descriptorOf {d : Descriptor} {i : Instr} (h : decodeDescriptor d = .ok i)
    (hn : d.opnd.length = d.n.toNat) : d = descriptorOf i := by
  obtain ⟨hopc, haddr, hopnd⟩ := decodeDescriptor_eq_ok h
  have hcount : BitVec.ofNat 8 d.opnd.length = d.n := by rw [hn, BitVec.ofNat_toNat, BitVec.setWidth_eq]
  simp only [descriptorOf, ← hopc, ← haddr, ← hopnd, hcount]

/-- A whole descriptor is never incomplete: the decoder's other error names its code. -/
theorem decodeDescriptor_ne_incomplete (d : Descriptor) : decodeDescriptor d ≠ .error .incomplete := by
  unfold decodeDescriptor
  split <;> simp

theorem splitDescriptor_of_incomplete {bytes : List Byte} (h : decode bytes = .error .incomplete) :
    splitDescriptor bytes = none := by
  unfold decode at h
  split at h
  · assumption
  · split at h
    · cases h
      exact absurd ‹_› (decodeDescriptor_ne_incomplete _)
    · cases h

/-- Settles O38: the port presents the command's descriptor, and acceptance latches it. -/
theorem stepRunsTheDecodedCommand : Obligations.StepRunsTheDecodedCommand := by
  intro s i rest hidle hr hv hdec
  obtain ⟨d, hsplit, hd⟩ := decode_eq_ok hdec
  obtain rfl := eq_descriptorOf hd (splitDescriptor_some _ _ _ hsplit).1
  have hfetch : fetch s = some (descriptorOf i, rest) := by simp [fetch, hv, hsplit]
  rw [step_of_accept hr (busy_of_idle hidle) hfetch hd]
  rfl

/-- Settles O40: in both cases the port presents no descriptor. -/
theorem idleWithoutACommand : Obligations.IdleWithoutACommand := by
  intro s hidle hr hnone
  have hfetch : fetch s = none := (fetch_eq_none s).2 (hnone.imp_right splitDescriptor_of_incomplete)
  exact step_of_no_command hr (busy_of_idle hidle) hfetch

/-! ## The result and the transmit history of a command -/

/-- R183: what the channel answers and takes of a packet depends on the packet and the draw. -/
theorem sendTo_agree {s u : State} (e : Dest) (a : Byte) (p : List Byte) (hs : s.level = .transaction)
    (hu : u.level = .transaction) (hdraw : s.drawNow = u.drawNow) :
    ∃ sent : List Byte, (sendTo e a p s).result = (sendTo e a p u).result ∧
      (sendTo e a p s).tx = s.tx ++ sent ∧ (sendTo e a p u).tx = u.tx ++ sent := by
  cases e with
  | resultPort => exact ⟨[], by simp [sendTo, returnPacket, hs, hu]⟩
  | txPort =>
    simp only [sendTo, transmit, hs, hu, handOver_eq, drawNow_startPacket, hdraw]
    cases u.drawNow with
    | none => exact ⟨encodePacket a p, by simp⟩
    | some k => exact ⟨(encodePacket a p).take k, by simp⟩

/-- Settles O36: FONT and PMAX fix how the command ends or which packet it sends, and the draw fixes the rest. -/
theorem nothingPassesBetweenCommands : Obligations.NothingPassesBetweenCommands := by
  intro i s u hs hu hpar hdraw
  rcases exec_ends_or_sends i s.par with ⟨k, l, hexec⟩ | ⟨e, p, _, hexec⟩
  · exact ⟨_, _, [], hexec s rfl, hexec u hpar.symm, rfl, by simp, by simp⟩
  · obtain ⟨sent, hres, hstx, hutx⟩ := sendTo_agree e i.addr p hs hu hdraw
    exact ⟨_, _, sent, hexec s rfl, hexec u hpar.symm, hres, hstx, hutx⟩

/-- Settles O48, by DEST. -/
theorem emittedByteGoesWhereDestSays : Obligations.EmittedByteGoesWhereDestSays := by
  intro b s
  rcases out_cases b s with ⟨hd, hout⟩ | ⟨hd, hout⟩
  · exact ⟨fun _ => hout, fun hd' => by simp [hd] at hd'⟩
  · exact ⟨fun hd' => by simp [hd] at hd', fun _ => hout⟩

/-- Settles O50: each value as `State.reset` and `Config.busTiming` write it. -/
theorem resetStateHasTheSpecsValues : Obligations.ResetStateHasTheSpecsValues :=
  ⟨rfl, rfl, rfl, rfl, rfl, rfl, rfl, rfl, rfl, rfl, rfl, rfl, rfl, rfl, rfl, rfl, rfl⟩

end Sys2Proof.Proofs.StateRules

/-! PROOFS. The statements of spec/20_memory.md: the order in which a packet's bytes reach the transmit history (R55,
R63), the font's index map (R52), the order of a mask's bits (R58) and of the payload's cells (R57), and the frame as a
view of the registers (R54). The run of a SEND in progress comes first. -/

namespace Sys2Proof.Proofs.Memory

open Sys2Proof Sys2Proof.Machine Sys2Proof.Proofs.Scope

/-! ## A transmitting command in progress -/

/-- Between `s` and `u` the sequencer has handed the next `k` bytes of the packet to the TX port and nothing else has
happened: the command still runs, and what is left is what was left but for these bytes. -/
structure HasSent (s u : State) (k : Nat) : Prop where
  inv : u.Inv
  busy : u.busy = true
  dest : u.dest = .txPort
  result : u.result = none
  tx : u.tx = s.tx ++ s.left.take k
  left : u.left = s.left.drop k
  cmdPort : u.cmdPort = s.cmdPort

theorem HasSent.refl {s : State} (hs : s.Inv) (hb : s.busy = true) (hd : s.dest = .txPort) (hr : s.result = none) :
    HasSent s s 0 :=
  ⟨hs, hb, hd, hr, by simp, rfl, rfl⟩

/-- What a step that lets the command go on does to the inputs. -/
abbrev PinsPass (s t : State) : Prop := t.pins = s.pins.tail ∧ t.clock = s.clock + 1

/-- R155: without tx_ready the sequencer waits. -/
theorem step_of_waiting {s : State} (hrst : s.pinsNow.rst = false) (hb : s.busy = true) (hd : s.dest = .txPort)
    (herr : s.pinsNow.txErr = false) (hrdy : s.pinsNow.txReady = false) : step s = .next (tick s) := by
  rw [step_of_busy hrst hb]
  simp [sequencerStep, hd, herr, hrdy]

theorem HasSent.step_waits {s u : State} {k : Nat} (h : HasSent s u k) (hrst : u.pinsNow.rst = false)
    (herr : u.pinsNow.txErr = false) (hrdy : u.pinsNow.txReady = false) :
    ∃ t, step u = .next t ∧ HasSent s t k ∧ PinsPass u t :=
  ⟨tick u, step_of_waiting hrst h.busy h.dest herr hrdy,
    ⟨tick_inv h.inv, h.busy, h.dest, rfl, h.tx, h.left, h.cmdPort⟩, rfl, rfl⟩

/-- R155, R35: with tx_ready one more byte goes out, and the command goes on where it is not the last. -/
theorem HasSent.step_sends {s u : State} {k : Nat} (h : HasSent s u k) (hrst : u.pinsNow.rst = false)
    (herr : u.pinsNow.txErr = false) (hrdy : u.pinsNow.txReady = true) (hk : k + 1 < s.left.length) :
    ∃ t, step u = .next t ∧ HasSent s t (k + 1) ∧ PinsPass u t := by
  have hk' : k < s.left.length := by omega
  have hleft : u.left = s.left[k] :: s.left.drop (k + 1) := by rw [h.left, List.drop_eq_getElem_cons hk']
  obtain ⟨t, hstep, hem⟩ := step_emits h.inv h.busy hleft ⟨hrst, .inr ⟨h.dest, herr, hrdy⟩⟩
  obtain ⟨hbusy, hres, _⟩ := hem.goesOn (by simp; omega)
  have hdest : t.dest = u.dest := untouched_dest (s := tick u) hem.untouched
  have hport : t.cmdPort = u.cmdPort := untouched_cmdPort (s := tick u) hem.untouched
  have htx : t.tx = s.tx ++ s.left.take (k + 1) := by
    rw [hem.tx, tick_tx, tick_dest, if_pos h.dest, h.tx, List.append_assoc, List.take_append_getElem hk']
  exact ⟨t, hstep, ⟨hem.inv, hbusy, hdest.trans h.dest, hres, htx, hem.left, hport.trans h.cmdPort⟩,
    untouched_pins (s := tick u) hem.untouched, untouched_clock (s := tick u) hem.untouched⟩

/-- R63 (c): after `n` steps with no reset and no error, fewer of them ready than bytes were left, as many bytes have
gone out, in order, as there were ready steps. -/
theorem run_hasSent {s : State} (hs : s.Inv) (hb : s.busy = true) (hd : s.dest = .txPort) (hr : s.result = none)
    (n : Nat) (hquiet : s.QuietFor n) (hn : s.readyCount n < s.left.length) :
    ∃ u, run n s = .next u ∧ HasSent s u (s.readyCount n) ∧ ∀ j, u.pinsAt j = s.pinsAt (n + j) := by
  induction n with
  | zero => exact ⟨s, rfl, .refl hs hb hd hr, by simp⟩
  | succ n ih =>
    have hcount := readyCount_succ s n
    obtain ⟨u, hrun, hsent, hpins⟩ := ih (fun k hk => hquiet k (by omega)) (by omega)
    have hnow : u.pinsNow = s.pinsAt n := by rw [← pinsAt_zero, hpins, Nat.add_zero]
    obtain ⟨hrst, herr⟩ := hquiet n (by omega)
    rw [← hnow] at hcount hrst herr
    obtain ⟨t, hstep, hsent', hp, hc⟩ : ∃ t, step u = .next t ∧ HasSent s t (s.readyCount (n + 1)) ∧ PinsPass u t := by
      cases hrdy : u.pinsNow.txReady with
      | false =>
        rw [hcount, hrdy]
        exact hsent.step_waits hrst herr hrdy
      | true =>
        rw [hrdy] at hcount
        rw [hcount] at hn ⊢
        exact hsent.step_sends hrst herr hrdy hn
    refine ⟨t, (run_add n 1 hrun).trans (run_succ 0 hstep), hsent', fun j => ?_⟩
    rw [pinsAt_of_tick hp hc, hpins]
    congr 1
    omega

/-- Between commands only the registers' sizes are in question (spec/10_state.md R39). -/
theorem inv_of_atRest {s : State} (hrest : s.AtRest) (hs : s.SizesOk) : s.Inv := by
  have ⟨hidle, _, _, _, hrdata⟩ := hrest
  exact ⟨hs, ⟨fun _ => hrest, by simp [hidle], by simp [hidle], fun _ => hrdata⟩, by simp [hidle]⟩

/-- R156 for SEND: at the byte level a payload that fits starts the sequencer. -/
theorem exec_send_of_byte {s : State} (a : Byte) {p : List Byte} (hlevel : s.level = .byte)
    (hp : p.length ≤ s.par.pmax) : exec (.send a p) s = .next (startPacket .txPort a p s) := by
  rcases performSend_cases a p s with ⟨hlt, _⟩ | ⟨_, hsend⟩
  · omega
  · exact congrArg _ (hsend.trans (sendTo_of_byte .txPort a p hlevel))

/-- Settles O56: acceptance leaves the whole packet to be sent, and the run takes a byte off it in each ready step. -/
theorem sendInProgressHasSentAPrefix : Obligations.SendInProgressHasSentAPrefix := by
  intro s a p n hrest hlevel hsizes hres hp hquiet hn
  have hleft := startPacket_left .txPort a p s
  obtain ⟨u, hrun, hsent, _⟩ := run_hasSent (s := startPacket .txPort a p s)
    (startPacket_inv _ a (inv_of_atRest hrest hsizes) hp) rfl rfl hres n hquiet (hleft ▸ hn)
  exact ⟨_, u, exec_send_of_byte a hlevel hp, hrun, hleft ▸ hsent.tx, hsent.busy, hsent.result, hsent.cmdPort⟩

/-! ## The font's index map -/

theorem toNat_foldCase_of_lower {c : Byte} (h : 0x61 ≤ c.toNat ∧ c.toNat ≤ 0x7A) : (foldCase c).toNat = c.toNat - 0x20 := by
  have hc : (0x61 : Byte) ≤ c ∧ c ≤ 0x7A := by simpa [BitVec.le_def] using h
  rw [foldCase, if_pos hc]
  bv_omega

theorem foldCase_of_not_lower {c : Byte} (h : ¬(0x61 ≤ c.toNat ∧ c.toNat ≤ 0x7A)) : foldCase c = c := by
  have hc : ¬((0x61 : Byte) ≤ c ∧ c ≤ 0x7A) := by simpa [BitVec.le_def] using h
  rw [foldCase, if_neg hc]

/-- The index of a code as a number, by the class of the folded code. -/
theorem fidx_val (c : Byte) :
    (fidx c).map Fin.val =
      if (foldCase c).toNat = 0x20 then some 0
      else if 0x30 ≤ (foldCase c).toNat ∧ (foldCase c).toNat ≤ 0x39 then some ((foldCase c).toNat - 0x30 + 1)
      else if 0x41 ≤ (foldCase c).toNat ∧ (foldCase c).toNat ≤ 0x5A then some ((foldCase c).toNat - 0x41 + 11)
      else none := by
  unfold fidx
  dsimp only
  split_ifs <;> rfl

/-- Settles O4: a lower-case letter folds to the upper-case one, and every other code is its own class. -/
theorem fontIndexMap : Obligations.FontIndexMap := by
  intro c
  simp only [BitVec.le_def, ← BitVec.toNat_inj, BitVec.reduceToNat, fidx_val]
  by_cases hlow : 0x61 ≤ c.toNat ∧ c.toNat ≤ 0x7A
  · rw [toNat_foldCase_of_lower hlow, if_neg (by omega), if_neg (by omega), if_pos (by omega), if_neg (by omega),
      if_neg (by omega), if_neg (by omega), if_pos hlow, Nat.sub_sub]
  · rw [foldCase_of_not_lower hlow, if_neg hlow]

/-! ## Masks and the SEG3 payload -/

/-- R58: no bit of a mask is without a segment. -/
theorem segmentBit_surjective : ∀ k : Fin 7, ∃ seg, segmentBit seg = k.val
  | 0 => ⟨.a, rfl⟩
  | 1 => ⟨.b, rfl⟩
  | 2 => ⟨.c, rfl⟩
  | 3 => ⟨.d, rfl⟩
  | 4 => ⟨.e, rfl⟩
  | 5 => ⟨.f, rfl⟩
  | 6 => ⟨.g, rfl⟩

theorem eq_of_lit {m m' : SegmentMask} (h : ∀ seg, lit m seg = lit m' seg) : m = m' := by
  apply BitVec.eq_of_getLsbD_eq
  intro k hk
  obtain ⟨seg, hseg⟩ := segmentBit_surjective ⟨k, hk⟩
  have hlit := h seg
  rwa [lit, lit, hseg] at hlit

/-- Settles O7: every bit belongs to a segment, so the lit segments fix the mask. -/
theorem maskIsItsLitSegments : Obligations.MaskIsItsLitSegments :=
  ⟨fun _ => ⟨rfl, rfl, rfl, rfl, rfl, rfl, rfl⟩, fun _ _ => ⟨fun h _ => h ▸ rfl, eq_of_lit⟩, segmentBit_surjective⟩

/-- A mask is read back from its byte. -/
@[simp] theorem setWidth_zext8 (m : SegmentMask) : (zext8 m).setWidth 7 = m := by
  simp [zext8, BitVec.setWidth_setWidth_of_le]

theorem seg3Cells_seg3Payload {l m r : Byte} (hl : validMask l = true) (hm : validMask m = true)
    (hr : validMask r = true) :
    seg3Cells (seg3Payload l m r) = some (l.setWidth 7, m.setWidth 7, r.setWidth 7) := by
  simp [seg3Cells, seg3Payload, hl, hm, hr]

/-- Settles O8: a mask's byte passes the display's check and holds the mask. -/
theorem seg3PayloadReadsBack : Obligations.Seg3PayloadReadsBack := by
  intro l m r
  refine ⟨rfl, ?_⟩
  rw [seg3Cells_seg3Payload (validMask_zext8 l) (validMask_zext8 m) (validMask_zext8 r)]
  simp

/-! ## The frame view -/

theorem frameByte_address {s : State} (h : s.idx = 0) : frameByte s = some s.addr := by
  rw [frameByte, if_pos h]

theorem frameByte_payload {s : State} (h1 : 1 ≤ s.idx) (h : s.idx ≤ s.plen) : frameByte s = s.pbuf[s.idx - 1]? := by
  rw [frameByte, if_neg (by omega), if_pos h]

theorem frameByte_checksum {s : State} (h : s.idx = s.plen + 1) : frameByte s = some s.csum := by
  rw [frameByte, if_neg (by omega), if_neg (by omega), if_pos h]

/-- Settles O44, position by position; where PBUF holds the payload, the payload's positions hold a byte. -/
theorem frameView : Obligations.FrameView := by
  intro s hbuf
  refine ⟨frameByte_address, fun h1 h => ⟨frameByte_payload h1 h, ?_⟩, frameByte_checksum⟩
  rw [frameByte_payload h1 h, ne_eq, List.getElem?_eq_none_iff]
  omega

end Sys2Proof.Proofs.Memory

/-! PROOFS. The statements of spec/30_encoding.md: descriptors are read as they are written (R81, R82), what a command
of the wrong shape or a reserved code does (R84, R85), how long a packet can be (R94), where its sentinels carry the
address (R87, R88), and the operand forms of digits and strings (R100 to R102). -/

namespace Sys2Proof.Proofs.Encoding

open Sys2Proof Sys2Proof.Machine Sys2Proof.Proofs.Scope Sys2Proof.Proofs.StateRules

/-! ## Reading and writing a descriptor -/

theorem wf_iff (i : Instr) : i.wf = true ↔ i.opnd.length ≤ 255 := by simp [Instr.wf]

/-- R81: a count that fits one byte is written without loss. -/
theorem toNat_ofNat_length {o : List Byte} (h : o.length ≤ 255) : (BitVec.ofNat 8 o.length).toNat = o.length := by
  rw [BitVec.toNat_ofNat, Nat.mod_eq_of_lt (by omega)]

theorem splitDescriptor_encode {i : Instr} (rest : List Byte) (h : i.wf = true) :
    splitDescriptor (encode i ++ rest) = some (descriptorOf i, rest) :=
  splitDescriptor_append (descriptorOf i) rest (toNat_ofNat_length ((wf_iff i).1 h))

/-- The converse of `decode_eq_ok`. -/
theorem decode_of_split {bytes rest : List Byte} {d : Descriptor} {i : Instr}
    (hsplit : splitDescriptor bytes = some (d, rest)) (hd : decodeDescriptor d = .ok i) :
    decode bytes = .ok (i, rest) := by
  simp only [decode, hsplit, hd]

/-- Settles O1: the descriptor is split off whole, and its code names the operation. -/
theorem decodeOfEncodeIsTheCommand : Obligations.DecodeOfEncodeIsTheCommand := by
  intro i rest hwf
  exact decode_of_split (splitDescriptor_encode rest hwf) (decodeDescriptor_descriptorOf i)

/-- Settles O2: what is split off has the right count, so it is the one descriptor of the command it decodes to. -/
theorem encodeOfDecodeIsTheBytes : Obligations.EncodeOfDecodeIsTheBytes := by
  intro bytes i rest h
  obtain ⟨d, hsplit, hd⟩ := decode_eq_ok h
  obtain ⟨hn, hbytes⟩ := splitDescriptor_some bytes d rest hsplit
  obtain ⟨_, _, hopnd⟩ := decodeDescriptor_eq_ok hd
  constructor
  · rw [wf_iff, ← hopnd, hn]
    have hbyte := d.n.isLt
    omega
  · rw [hbytes, eq_descriptorOf hd hn, encode]

/-! ## The length of a packet -/

/-- R153: each byte of the list that needs it costs one byte more. -/
theorem stuff_length (f : List Byte) : (stuff f).length = f.length + f.countP needsEscape := by
  induction f with
  | nil => rfl
  | cons b f ih =>
    rw [stuff_cons, List.length_append, ih, List.length_cons, List.countP_cons]
    rcases stuff1_cases b with ⟨_, hesc, _, hpair⟩ | ⟨_, hesc, _, hsame⟩
    · simp only [hpair, hesc, List.length_cons, List.length_nil, if_true]
      omega
    · simp only [hsame, hesc, List.length_cons, List.length_nil, Bool.false_eq_true, if_false]
      omega

theorem encodePacket_length (a : Byte) (p : List Byte) :
    (encodePacket a p).length = 2 * (p.length + 12 + escapeCount a p) := by
  simp only [encodePacket, wrapped, escapedBody, escapeCount, List.length_append, stuff_length, frame_length,
    header_length, trailer_length]
  omega

/-- Beside the payload only the address and the checksum can need a pair. -/
theorem escapeCount_le (a : Byte) (p : List Byte) : escapeCount a p ≤ p.countP needsEscape + 2 := by
  simp only [escapeCount, frame, packetData, List.cons_append, List.countP_cons, List.countP_append, List.countP_nil]
  split <;> split <;> omega

theorem needsEscape_toNat {b : Byte} (h : needsEscape b = true) : 254 ≤ b.toNat ∧ b.toNat ≤ 255 := by
  obtain rfl | rfl := of_decide_eq_true h
  · decide
  · decide

theorem needsEscape_of_validMask {b : Byte} (h : validMask b = true) : needsEscape b = false := by
  by_contra hesc
  obtain ⟨hlo, _⟩ := needsEscape_toNat (Bool.eq_true_of_not_eq_false hesc)
  have hhi := (validMask_iff b).1 h
  omega

theorem seg3Payload_needs_no_escape (l m r : SegmentMask) :
    (seg3Payload (zext8 l) (zext8 m) (zext8 r)).countP needsEscape = 0 := by
  have hcmd : needsEscape Config.cmdSeg3 = false := by decide
  have htail : needsEscape Config.padTail = false := by decide
  have hmask (k : SegmentMask) := needsEscape_of_validMask (validMask_zext8 k)
  simp [seg3Payload, hcmd, htail, hmask]

theorem byteSum_of_all_escaped {l : List Byte} (h : ∀ b ∈ l, needsEscape b = true) :
    254 * l.length ≤ byteSum l ∧ byteSum l ≤ 255 * l.length := by
  induction l with
  | nil => simp
  | cons b l ih =>
    obtain ⟨hlo, hhi⟩ := needsEscape_toNat (h b List.mem_cons_self)
    obtain ⟨ihlo, ihhi⟩ := ih fun c hc => h c (List.mem_cons_of_mem b hc)
    simp only [byteSum_cons, List.length_cons]
    omega

/-- Modulo 256 the sum of `n` bytes FE or FF is between `-2n` and `-n`, which is not FE or FF for `3 ≤ n ≤ 128`: then a
frame whose data all need a pair has a checksum that needs none. -/
theorem escapeCount_le_of_length {a : Byte} {p : List Byte} (h2 : 2 ≤ p.length) (h127 : p.length ≤ 127) :
    escapeCount a p ≤ p.length + 1 := by
  by_contra hlt
  have hall : ∀ b ∈ frame a p, needsEscape b = true := by
    refine List.countP_eq_length.1 (Nat.le_antisymm List.countP_le_length ?_)
    rw [frame_length]
    exact Nat.lt_of_not_le hlt
  obtain ⟨hlo, hhi⟩ := byteSum_of_all_escaped (l := packetData a p) fun b hb => hall b (List.mem_append_left _ hb)
  obtain ⟨hsum, _⟩ := needsEscape_toNat (hall (checksum (packetData a p)) (by simp [frame]))
  rw [checksum, BitVec.toNat_ofNat] at hsum
  have hlen : (packetData a p).length = p.length + 1 := rfl
  rcases Nat.lt_or_ge (byteSum (packetData a p) / 256) p.length with hq | hq
  · omega
  · omega

/-- Settles O14: every bound is one on the count of pairs, which is 0 at least, at most 2 for a SEG3 payload, and 33 at
most for 32 bytes, since the checksum of 33 escaped bytes needs no pair. -/
theorem packetLengthBounds : Obligations.PacketLengthBounds := by
  refine ⟨fun a p => ?_, ?_, fun par a p hp => ?_, fun a l m r => ?_, fun a p hp => ?_, ?_⟩
  · rw [encodePacket_length]
    omega
  · decide
  · have hle := encodePacket_length_le a p
    omega
  · have hle := escapeCount_le a (seg3Payload (zext8 l) (zext8 m) (zext8 r))
    rw [seg3Payload_needs_no_escape] at hle
    rw [encodePacket_length, seg3Payload_length]
    omega
  · have hle := escapeCount_le_of_length (a := a) (p := p) (by omega) (by omega)
    rw [encodePacket_length]
    omega
  · rw [encodePacket_length]
    decide

/-- Settles O17: the header is the first part of the wrapped sequence, the trailer the last. -/
theorem sentinelsCarryTheBareAddress : Obligations.SentinelsCarryTheBareAddress := by
  intro a p
  refine ⟨?_, ?_, rfl⟩
  · rw [wrapped, List.append_assoc]
    exact List.take_left' (header_length a)
  · exact List.drop_left' (by simp [wrapped, Nat.add_comm])

/-! ## Digits and strings -/

theorem hexchar_toNat {d : Byte} (h : d.toNat ≤ 14) :
    (hexchar d).toNat = if d.toNat ≤ 9 then 0x30 + d.toNat else 0x41 + (d.toNat - 10) := by
  have h9 : d ≤ 9 ↔ d.toNat ≤ 9 := by simp [BitVec.le_def]
  simp only [hexchar, h9]
  split
  · bv_omega
  · bv_omega

/-- Settles O6, with `fidx_hexchar` for the font index. -/
theorem digitSelectsTheNextFontEntry : Obligations.DigitSelectsTheNextFontEntry := by
  intro d hd
  refine ⟨hexchar_toNat hd, ?_⟩
  have hidx := fidx_hexchar ⟨d.toNat, by omega⟩
  rw [BitVec.ofNat_toNat, BitVec.setWidth_eq] at hidx
  rw [hidx]
  rfl

theorem pad3_length {o : List Byte} (h : o.length ≤ 3) : (pad3 o).length = 3 := by
  simp only [pad3, List.length_append, List.length_replicate]
  omega

theorem pad3_pad3 {o : List Byte} (h : o.length ≤ 3) : pad3 (pad3 o) = pad3 o := by
  rw [pad3, pad3_length h]
  simp

@[simp] theorem foldCase_space : foldCase Config.space = Config.space := rfl

/-- The padding is no letter, so folding before or after it is the same. -/
theorem pad3_map_foldCase (o : List Byte) : pad3 (o.map foldCase) = (pad3 o).map foldCase := by
  simp [pad3]

theorem performChars_foldCase (a l m r : Byte) (s : State) :
    performChars a (foldCase l) (foldCase m) (foldCase r) s = performChars a l m r s := by
  simp only [performChars, mask_foldCase]

/-- R203 after the length check: WRSTR shows the three characters of the padded string. -/
theorem exec_wrstr_of_short (a : Byte) {o : List Byte} (s : State) (h : o.length ≤ 3) :
    exec (.wrstr a o) s = .next (performChars a ((pad3 o).getD 0 Config.space) ((pad3 o).getD 1 Config.space)
      ((pad3 o).getD 2 Config.space) s) :=
  if_neg (Nat.not_lt.2 h)

/-- R203, R246: a longer string is refused before any character is read. -/
theorem exec_wrstr_of_long (a : Byte) {o : List Byte} (s : State) (h : 3 < o.length) :
    exec (.wrstr a o) s = .next (raise .invalidInput s) :=
  if_pos h

theorem exec_wrstr_pad3 (a : Byte) {o : List Byte} (s : State) (h : o.length ≤ 3) :
    exec (.wrstr a (pad3 o)) s = exec (.wrstr a o) s := by
  rw [exec_wrstr_of_short a s h, exec_wrstr_of_short a s (pad3_length h).le, pad3_pad3 h]

theorem exec_wrstr_map_foldCase (a : Byte) (o : List Byte) (s : State) :
    exec (.wrstr a (o.map foldCase)) s = exec (.wrstr a o) s := by
  have hlen : (o.map foldCase).length = o.length := List.length_map foldCase
  have hchar (k : Nat) : ((pad3 o).map foldCase).getD k Config.space = foldCase ((pad3 o).getD k Config.space) :=
    List.getD_map (l := pad3 o) Config.space foldCase
  by_cases h : o.length ≤ 3
  · rw [exec_wrstr_of_short a s h, exec_wrstr_of_short a s (hlen.trans_le h), pad3_map_foldCase, hchar, hchar, hchar,
      performChars_foldCase]
  · have hlong := Nat.lt_of_not_le h
    rw [exec_wrstr_of_long a s hlong, exec_wrstr_of_long a s (hlen.symm ▸ hlong)]

/-- Settles O31: padding twice is padding once, and the font index does not see the case. -/
theorem stringsPadAndFold : Obligations.StringsPadAndFold :=
  ⟨fun s a _ ho => (exec_wrstr_pad3 a s ho).symm, fun s a o => (exec_wrstr_map_foldCase a o s).symm⟩

/-! ## Commands that are refused for their shape or code -/

/-- An error raised between commands writes the result port alone (spec/10_state.md R39). -/
theorem raise_of_atRest {s : State} (k : Status) (h : s.AtRest) :
    raise k s = { s with result := some ⟨k, []⟩ } := by
  obtain ⟨hidle, hpass, hidx, hesc, hrdata⟩ := h
  exact finish_of_idle k [] s hpass hidle hidx hesc hrdata

/-- R84, spec/95_test_vectors.md D-E3. -/
theorem exec_seg3 (a : Byte) (o : List Byte) (s : State) : exec (.seg3 a o) s = .next (raise .illegalCommand s) := rfl

section refused

variable (a : Byte) {o : List Byte} (s : State)

theorem exec_lookup_of_count (h : o.length ≠ 1) : exec (.lookup a o) s = .next (raise .invalidInput s) := by
  simp only [exec, execLookup]
  split
  · simp at h
  · rfl

theorem exec_encode_of_long (h : s.par.pmax < o.length) : exec (.encode a o) s = .next (raise .illegalCommand s) :=
  congrArg _ (if_pos h)

theorem exec_send_of_long (h : s.par.pmax < o.length) : exec (.send a o) s = .next (raise .illegalCommand s) :=
  congrArg _ (if_pos h)

theorem exec_wrseg_of_count (h : o.length ≠ 3) : exec (.wrseg a o) s = .next (raise .illegalCommand s) := by
  simp only [exec, execWrseg]
  split
  · simp at h
  · rfl

theorem exec_wrdig_of_count (h : o.length ≠ 3) : exec (.wrdig a o) s = .next (raise .illegalCommand s) := by
  simp only [exec, execWrdig]
  split
  · simp at h
  · rfl

end refused

/-- Settles O26. -/
theorem seg3OnThePortIsIllegal : Obligations.Seg3OnThePortIsIllegal := by
  intro s a o hrest
  rw [exec_seg3, raise_of_atRest .illegalCommand hrest]

/-- Settles O27, operation by operation: the shape is checked before any operand is read. -/
theorem malformedDescriptorsAreRefused : Obligations.MalformedDescriptorsAreRefused := by
  intro s i hrest hshape
  cases i with
  | lookup a o => rw [exec_lookup_of_count a s (of_decide_eq_false hshape), raise_of_atRest _ hrest]
  | encode a o =>
    rw [exec_encode_of_long a s (Nat.lt_of_not_le (of_decide_eq_false hshape)), raise_of_atRest _ hrest]
  | send a o => rw [exec_send_of_long a s (Nat.lt_of_not_le (of_decide_eq_false hshape)), raise_of_atRest _ hrest]
  | wrseg a o => rw [exec_wrseg_of_count a s (of_decide_eq_false hshape), raise_of_atRest _ hrest]
  | wrdig a o => rw [exec_wrdig_of_count a s (of_decide_eq_false hshape), raise_of_atRest _ hrest]
  | wrstr a o => rw [exec_wrstr_of_long a s (Nat.lt_of_not_le (of_decide_eq_false hshape)), raise_of_atRest _ hrest]
  | seg3 a o => rw [exec_seg3, raise_of_atRest _ hrest]

/-- R84: a code from 06 up is the row SEG3 or no command. -/
theorem decodeDescriptor_of_reserved {d : Descriptor} (h : 0x06 ≤ d.opc.toNat) :
    decodeDescriptor d = .ok (.seg3 d.addr d.opnd) ∨ decodeDescriptor d = .error (.reserved d.opc) := by
  unfold decodeDescriptor
  split
  case h_7 => exact .inl rfl
  case h_8 => exact .inr rfl
  all_goals omega

theorem fetch_of_cmdPort {s : State} {d : Descriptor} {rest : List Byte} (hv : s.pinsNow.valid = true)
    (hn : d.n.toNat = d.opnd.length) (hport : s.cmdPort = descriptorBytes d ++ rest) : fetch s = some (d, rest) := by
  rw [fetch, if_pos hv, hport, splitDescriptor_append d rest hn]

/-- R84: accepted and refused, whether or not the decoder knows the code. -/
theorem step_of_reserved {s : State} {d : Descriptor} {rest : List Byte} (hr : s.pinsNow.rst = false)
    (hb : s.busy = false) (hf : fetch s = some (d, rest)) (h : 0x06 ≤ d.opc.toNat) :
    step s = .next (raise .illegalCommand (accept d rest s)) := by
  rcases decodeDescriptor_of_reserved h with hd | hd
  · rw [step_of_accept hr hb hf hd, exec_seg3]
  · simp [step, hr, hb, hf, hd]

/-- Settles O39: acceptance leaves the sequencer at rest, so the refusal adds the result alone. -/
theorem reservedCodesAreIllegal : Obligations.ReservedCodesAreIllegal := by
  intro s opc a o rest hrest hr hv ho hopc hport
  have hfetch := fetch_of_cmdPort (d := ⟨opc, a, BitVec.ofNat 8 o.length, o⟩) hv (toNat_ofNat_length ho) hport
  have ⟨hidle, _⟩ := hrest
  have haccept : (accept ⟨opc, a, BitVec.ofNat 8 o.length, o⟩ rest s).AtRest := hrest
  rw [step_of_reserved hr (busy_of_idle hidle) hfetch hopc, raise_of_atRest .illegalCommand haccept]
  rfl

end Sys2Proof.Proofs.Encoding

/-! PROOFS. The statements of spec/40_segment_font.md: what LOOKUP answers (R120 to R122, R126), when it fails (R124,
R125), and how many codes are supported (R124). The rules about the font and the three cases of LOOKUP come first. -/

namespace Sys2Proof.Proofs.SegmentFont

open Sys2Proof Sys2Proof.Machine Sys2Proof.Proofs.Memory Sys2Proof.Proofs.Encoding

/-! ## Characters and the font -/

/-- R124's four classes of supported codes: space, the digits, and the letters in upper and lower case. -/
abbrev SupportedCode (k : Nat) : Prop :=
  k = 0x20 ∨ (0x30 ≤ k ∧ k ≤ 0x39) ∨ (0x41 ≤ k ∧ k ≤ 0x5A) ∨ (0x61 ≤ k ∧ k ≤ 0x7A)

theorem isSome_fidx_iff (c : Byte) : (fidx c).isSome = true ↔ SupportedCode c.toNat := by
  rw [← Option.isSome_map (f := Fin.val), fontIndexMap c]
  simp only [BitVec.le_def, ← BitVec.toNat_inj, BitVec.reduceToNat]
  split_ifs
  · exact iff_of_true rfl (by omega)
  · exact iff_of_true rfl (by omega)
  · exact iff_of_true rfl (by omega)
  · exact iff_of_true rfl (by omega)
  · exact iff_of_false Bool.false_ne_true (by omega)

/-- How many codes below `n` each of the four classes holds. -/
theorem countP_supportedCode (n : Nat) :
    (List.range n).countP (fun k => decide (SupportedCode k)) =
      (min n 0x21 - 0x20) + (min n 0x3A - 0x30) + (min n 0x5B - 0x41) + (min n 0x7B - 0x61) := by
  induction n with
  | zero => rfl
  | succ n ih =>
    rw [List.range_succ, List.countP_append, ih, List.countP_singleton]
    simp only [decide_eq_true_iff]
    split <;> omega

theorem countP_isSome_fidx : ((List.range 256).countP fun k => (fidx (BitVec.ofNat 8 k)).isSome) = 63 := by
  calc ((List.range 256).countP fun k => (fidx (BitVec.ofNat 8 k)).isSome)
      = (List.range 256).countP fun k => decide (SupportedCode k) := by
        refine List.countP_congr fun k hk => ?_
        have hbyte : (BitVec.ofNat 8 k).toNat = k := Nat.mod_eq_of_lt (List.mem_range.1 hk)
        rw [isSome_fidx_iff, hbyte, decide_eq_true_iff]
    _ = 1 + 10 + 26 + 26 := countP_supportedCode 256

/-- An upper-case letter is no lower-case one. -/
theorem foldCase_foldCase (c : Byte) : foldCase (foldCase c) = foldCase c := by
  by_cases hlow : 0x61 ≤ c.toNat ∧ c.toNat ≤ 0x7A
  · have hfold := toNat_foldCase_of_lower hlow
    exact foldCase_of_not_lower (by omega)
  · rw [foldCase_of_not_lower hlow, foldCase_of_not_lower hlow]

/-- R121: the font index does not see the case. -/
theorem fidx_foldCase (c : Byte) : fidx (foldCase c) = fidx c := by
  simp only [fidx, foldCase_foldCase]

theorem fidx_space : fidx 0x20 = some 0 := rfl

/-- R122: the first entry is fixed, whatever the parameter holds. -/
@[simp] theorem fontRead_zero (par : Params) : fontRead par 0 = 0 := rfl

/-- R126: a mask's byte has bit 7 clear. -/
theorem toNat_zext8_le (m : SegmentMask) : (zext8 m).toNat ≤ 0x7F :=
  (validMask_iff _).1 (validMask_zext8 m)

/-! ## The cases of LOOKUP (R120); the count is `exec_lookup_of_count` -/

theorem exec_lookup_of_supported (a : Byte) {c : Byte} {k : Fin 37} (s : State) (h : fidx c = some k) :
    exec (.lookup a [c]) s = .next (finish .ok [zext8 (fontRead s.par k)] s) := by
  simp only [exec, execLookup, h]

theorem exec_lookup_of_unsupported (a : Byte) {c : Byte} (s : State) (h : fidx c = none) :
    exec (.lookup a [c]) s = .next (raise .unsupportedCharacter s) := by
  simp only [exec, execLookup, h]

/-- R120, R127: of a lookup of one character only its font index matters; ADDR is ignored. -/
theorem exec_lookup_congr (a b : Byte) {c d : Byte} (s : State) (h : fidx c = fidx d) :
    exec (.lookup a [c]) s = exec (.lookup b [d]) s := by
  simp only [exec, execLookup, h]

/-- A command that ends at once between commands writes the result port alone (spec/10_state.md R39). -/
theorem finish_of_atRest {s : State} (k : Status) (l : List Byte) (h : s.AtRest) :
    finish k l s = { s with result := some ⟨k, l⟩ } := by
  obtain ⟨hidle, hpass, hidx, hesc, hrdata⟩ := h
  exact finish_of_idle k l s hpass hidle hidx hesc hrdata

theorem exec_lookup_atRest (a : Byte) {c : Byte} {k : Fin 37} {s : State} (hs : s.AtRest) (h : fidx c = some k) :
    exec (.lookup a [c]) s = .next { s with result := some ⟨.ok, [zext8 (fontRead s.par k)]⟩ } := by
  rw [exec_lookup_of_supported a s h, finish_of_atRest .ok _ hs]

/-! ## The statements -/

/-- Settles O18: space has the fixed entry 0, and a lower-case letter is folded to a character of the same index. -/
theorem lookupAnswersTheMask : Obligations.LookupAnswersTheMask := by
  refine ⟨fun s a c k hs hk => ⟨exec_lookup_atRest a hs hk, toNat_zext8_le _⟩, fun s a hs => ?_,
    fun s a b c hlo hhi => ?_⟩
  · rw [exec_lookup_atRest a hs fidx_space, fontRead_zero]
    rfl
  · have hfold : foldCase c = c - 0x20 := if_pos ⟨hlo, hhi⟩
    exact exec_lookup_congr a b s (hfold ▸ (fidx_foldCase c).symm)

/-- Settles O5: the four classes are counted, and the unsupported codes are the rest of the 256. -/
theorem sixtyThreeSupportedCodes : Obligations.SixtyThreeSupportedCodes := by
  have hall := List.length_eq_countP_add_countP (fun k => (fidx (BitVec.ofNat 8 k)).isSome) (l := List.range 256)
  simp only [countP_isSome_fidx, List.length_range, Bool.not_eq_true, Option.isSome_eq_false_iff,
    Bool.decide_eq_true] at hall
  exact ⟨countP_isSome_fidx, by omega⟩

/-- Settles O19: the count is checked first, then the character. -/
theorem lookupErrors : Obligations.LookupErrors := by
  refine ⟨fun s a c hs hnone => ?_, fun s a o hs hcount => ?_⟩
  · rw [exec_lookup_of_unsupported a s hnone, raise_of_atRest .unsupportedCharacter hs]
  · rw [exec_lookup_of_count a s hcount, raise_of_atRest .invalidInput hs]

end Sys2Proof.Proofs.SegmentFont

/-! PROOFS. The statements of spec/41_packet_codec.md: the function `encode` and its reference unstuffer (R149 to R154),
how ENCODE and SEND are accepted (R148, R156), one step of the byte-level sequencer (R155 to R160), and the runs in
which it emits the whole packet (R161). -/

namespace Sys2Proof.Proofs.PacketCodec

open Sys2Proof Sys2Proof.Machine Sys2Proof.Proofs.Scope Sys2Proof.Proofs.Memory Sys2Proof.Proofs.Encoding
  Sys2Proof.Proofs.SegmentFont

/-! ## The run of a whole packet -/

/-- R155, R160: with tx_ready the last byte goes out, and the command ends with OK and no data. -/
theorem step_sends_last {s u : State} {k : Nat} (h : HasSent s u k) (hrst : u.pinsNow.rst = false)
    (herr : u.pinsNow.txErr = false) (hrdy : u.pinsNow.txReady = true) (hk : k + 1 = s.left.length) :
    ∃ t, step u = .next t ∧ t.tx = s.tx ++ s.left ∧ t.result = some ⟨.ok, []⟩ ∧ t.AtRest ∧ t.cmdPort = s.cmdPort := by
  have hk' : k < s.left.length := by omega
  have hleft : u.left = [s.left[k]] := by
    rw [h.left, List.drop_eq_getElem_cons hk', hk, List.drop_length]
  obtain ⟨t, hstep, hem⟩ := step_emits h.inv h.busy hleft ⟨hrst, .inr ⟨h.dest, herr, hrdy⟩⟩
  obtain ⟨hrest, hres⟩ := hem.ends rfl
  have hport : t.cmdPort = u.cmdPort := untouched_cmdPort (s := tick u) hem.untouched
  have hrdata : u.rdata = [] := by
    obtain ⟨_, ⟨_, _, _, hrdata⟩, _⟩ := h.inv
    exact hrdata h.dest
  have htx : t.tx = s.tx ++ s.left := by
    rw [hem.tx, tick_tx, tick_dest, if_pos h.dest, h.tx, List.append_assoc, List.take_append_getElem hk', hk,
      List.take_length]
  refine ⟨t, hstep, htx, ?_, hrest, hport.trans h.cmdPort⟩
  rw [hres, tick_rdata, tick_dest, hrdata, h.dest]
  rfl

/-- A result is not sticky (spec/10_state.md R28): no step reads the one of the step before. -/
theorem step_without_result (s : State) : step { s with result := none } = step s := rfl

theorem run_succ_congr {s u : State} (n : Nat) (h : step s = step u) : run (n + 1) s = run (n + 1) u := by
  simp only [run, Host.Core.run]
  rw [show Sys2Proof.core.step s = Sys2Proof.core.step u from h]

/-- R161: on a channel that reports no error, the step in which it takes the last byte of what is left ends the
command. -/
theorem run_sends_all {s : State} (hs : s.Inv) (hb : s.busy = true) (hd : s.dest = .txPort) (n : Nat)
    (hquiet : s.QuietFor (n + 1)) (hn : s.readyCount n + 1 = s.left.length) (hrdy : (s.pinsAt n).txReady = true) :
    ∃ u, run (n + 1) s = .next u ∧
      u.tx = s.tx ++ s.left ∧ u.result = some ⟨.ok, []⟩ ∧ u.AtRest ∧ u.cmdPort = s.cmdPort := by
  obtain ⟨v, hrun, hsent, hpins⟩ := run_hasSent (s := { s with result := none }) hs hb hd rfl n
    (fun k hk => hquiet k (by omega)) (show s.readyCount n < s.left.length by omega)
  have hnow : v.pinsNow = s.pinsAt n := by rw [← pinsAt_zero, hpins]; rfl
  obtain ⟨hrst, herr⟩ := hquiet n (by omega)
  rw [← hnow] at hrst herr hrdy
  obtain ⟨u, hstep, hend⟩ := step_sends_last hsent hrst herr hrdy hn
  refine ⟨u, ?_, hend⟩
  rw [← run_succ_congr n (step_without_result s), run_add n 1 hrun, run_succ 0 hstep, run_zero]

/-- Settles O57: acceptance leaves the whole packet to be sent. -/
theorem sendRefinesTheFunction : Obligations.SendRefinesTheFunction := by
  intro s a p n hrest hlevel hsizes hp hquiet hn hrdy
  have hleft := startPacket_left .txPort a p s
  obtain ⟨u, hrun, hend⟩ := run_sends_all (s := startPacket .txPort a p s)
    (startPacket_inv _ a (inv_of_atRest hrest hsizes) hp) rfl rfl n hquiet (hleft ▸ hn) hrdy
  rw [hleft] at hend
  exact ⟨_, u, exec_send_of_byte a hlevel hp, hrun, hend⟩

/-- R148: ENCODE of a payload that fits sends the packet to the result port. -/
theorem exec_encode_of_fits {s : State} (a : Byte) {p : List Byte} (hp : p.length ≤ s.par.pmax) :
    exec (.encode a p) s = .next (sendTo .resultPort a p s) :=
  congrArg _ (if_neg (Nat.not_lt.2 hp))

/-- R156 for ENCODE, as `exec_send_of_byte`. -/
theorem exec_encode_of_byte {s : State} (a : Byte) {p : List Byte} (hlevel : s.level = .byte)
    (hp : p.length ≤ s.par.pmax) : exec (.encode a p) s = .next (startPacket .resultPort a p s) := by
  rw [exec_encode_of_fits a hp, sendTo_of_byte .resultPort a p hlevel]

/-- Settles O58: the result port takes a byte in every step outside reset. -/
theorem encodeRefinesTheFunction : Obligations.EncodeRefinesTheFunction := by
  intro s a p hrest hlevel hsizes hp hreset
  obtain ⟨u, hrun, htx, hend⟩ := run_startPacket .resultPort a (inv_of_atRest hrest hsizes) hp
    fun k hk => ⟨hreset k hk, .inl rfl⟩
  exact ⟨_, u, exec_encode_of_byte a hlevel hp, hrun, htx.trans (List.append_nil _), hend⟩

/-! ## The reference unstuffer, row by row (R150) -/

theorem unstuff_escFE (rest : List Byte) : unstuff (0xFE :: 0x00 :: rest) = (unstuff rest).map (0xFE :: ·) := rfl

theorem unstuff_escFF (rest : List Byte) : unstuff (0xFE :: 0x01 :: rest) = (unstuff rest).map (0xFF :: ·) := rfl

theorem unstuff_badPair {x : Byte} (rest : List Byte) (h : 0x02 ≤ x) : unstuff (0xFE :: x :: rest) = none := by
  have h0 : x ≠ Config.escFE := by rintro rfl; exact absurd h (by decide)
  have h1 : x ≠ Config.escFF := by rintro rfl; exact absurd h (by decide)
  have hne : (0xFE : Byte) ≠ Config.delim := by decide
  have hesc : (0xFE : Byte) = Config.escMarker := rfl
  rw [unstuff, if_neg hne, if_pos hesc, if_neg h0, if_neg h1]

theorem unstuff_delim (rest : List Byte) : unstuff (0xFF :: rest) = none := by
  rw [unstuff.eq_def]
  exact if_pos rfl

theorem unstuff_plain {b : Byte} (rest : List Byte) (hFE : b ≠ 0xFE) (hFF : b ≠ 0xFF) :
    unstuff (b :: rest) = (unstuff rest).map (b :: ·) := by
  rw [unstuff.eq_def]
  exact (if_neg hFF).trans (if_neg hFE)

/-- One byte's pair or single byte is read back as that byte. -/
theorem unstuff_stuff1_append (b : Byte) (rest : List Byte) :
    unstuff (stuff1 b ++ rest) = (unstuff rest).map (b :: ·) := by
  rcases stuff1_cases b with ⟨rfl | rfl, _, _, hpair⟩ | ⟨⟨hFE, hFF⟩, _, _, hsame⟩
  · rw [hpair]
    exact unstuff_escFE rest
  · rw [hpair]
    exact unstuff_escFF rest
  · rw [hsame]
    exact unstuff_plain rest hFE hFF

theorem unstuff_stuff (f : List Byte) : unstuff (stuff f) = some f := by
  induction f with
  | nil => rfl
  | cons b f ih => rw [stuff_cons, unstuff_stuff1_append, ih, Option.map_some]

theorem wrapped_length (a : Byte) (p : List Byte) : (wrapped a p).length = (escapedBody a p).length + 10 := by
  simp only [wrapped, List.length_append, header_length, trailer_length]
  omega

/-- Between the five header and the five trailer bytes of a wrapped sequence stands the body. -/
theorem body_of_wrapped (a : Byte) (p : List Byte) :
    ((wrapped a p).drop 5).take ((wrapped a p).length - 10) = escapedBody a p := by
  rw [wrapped_length, Nat.add_sub_cancel, wrapped, List.append_assoc, List.drop_left' (header_length a),
    List.take_left' rfl]

theorem unstuff_body_of_wrapped (a : Byte) (p : List Byte) :
    unstuff (((wrapped a p).drop 5).take ((wrapped a p).length - 10)) = some (frame a p) := by
  rw [body_of_wrapped, escapedBody, unstuff_stuff]

/-- Settles O10: the stuffing is undone byte by byte, and each row is one branch of the unstuffer. -/
theorem unstuffInvertsStuff : Obligations.UnstuffInvertsStuff := by
  refine ⟨unstuff_stuff, unstuff_body_of_wrapped, rfl, unstuff_escFE, unstuff_escFF,
    fun x rest => unstuff_badPair rest, rfl, unstuff_delim, fun b rest hb => unstuff_plain rest ?_ ?_⟩
  · rintro rfl
    exact absurd hb (by decide)
  · rintro rfl
    exact absurd hb (by decide)

/-! ## What a packet holds -/

/-- R91: a byte stands for itself, or for it stand FE and then 00 or 01. -/
theorem stuff1_plain_or_pair (b : Byte) :
    (stuff1 b = [b] ∧ b ≠ 0xFE ∧ b ≠ 0xFF) ∨ ∃ x, stuff1 b = [0xFE, x] ∧ (x = 0x00 ∨ x = 0x01) := by
  rcases stuff1_cases b with ⟨_, _, _, hpair⟩ | ⟨⟨hFE, hFF⟩, _, _, hsame⟩
  · refine .inr ⟨_, hpair, ?_⟩
    split
    · exact .inl rfl
    · exact .inr rfl
  · exact .inl ⟨hsame, hFE, hFF⟩

/-- R152: neither a plain byte nor a byte of a pair is FF. -/
theorem ne_delim_of_mem_stuff {f : List Byte} {b : Byte} (h : b ∈ stuff f) : b ≠ 0xFF := by
  obtain ⟨c, _, hb⟩ := List.mem_flatMap.1 h
  rcases stuff1_plain_or_pair c with ⟨hsame, _, hFF⟩ | ⟨x, hpair, hx⟩
  · rw [hsame, List.mem_singleton] at hb
    exact hb ▸ hFF
  · rw [hpair, List.mem_pair] at hb
    obtain rfl | rfl := hb
    · decide
    · obtain rfl | rfl := hx <;> decide

/-- R152: FE stands only as the first byte of a pair. -/
theorem escape_starts_pair {f : List Byte} {k : Nat} (h : (stuff f)[k]? = some 0xFE) :
    (stuff f)[k + 1]? = some 0x00 ∨ (stuff f)[k + 1]? = some 0x01 := by
  induction f generalizing k with
  | nil => simp at h
  | cons b f ih =>
    rw [stuff_cons] at h ⊢
    rcases stuff1_plain_or_pair b with ⟨hsame, hFE, _⟩ | ⟨x, hpair, hx⟩
    · rw [hsame] at h ⊢
      match k with
      | 0 => exact absurd (Option.some.inj h) hFE
      | k + 1 => exact ih h
    · rw [hpair] at h ⊢
      match k with
      | 0 => exact hx.imp (congrArg some) (congrArg some)
      | 1 =>
        obtain rfl : x = 0xFE := Option.some.inj h
        exact absurd hx (by decide)
      | k + 2 => exact ih h

/-- The byte after FE is no FE, so FE is never the second byte of a pair. -/
theorem no_escape_before_escape {f : List Byte} {k : Nat} (h : (stuff f)[k]? = some 0xFE) :
    k = 0 ∨ (stuff f)[k - 1]? ≠ some 0xFE := by
  cases k with
  | zero => exact .inl rfl
  | succ k =>
    refine .inr fun hprev => ?_
    have hsnd := escape_starts_pair hprev
    rw [Nat.add_sub_cancel, h] at hsnd
    exact absurd hsnd (by decide)

theorem wrapped_header_at (a : Byte) (p : List Byte) {k : Nat} (h : k < 5) : (wrapped a p)[k]? = (header a)[k]? := by
  rw [wrapped, List.append_assoc, List.getElem?_append_left (by simpa using h)]

theorem wrapped_body_at (a : Byte) (p : List Byte) {k : Nat} (h : k < (escapedBody a p).length) :
    (wrapped a p)[5 + k]? = (escapedBody a p)[k]? := by
  rw [wrapped, List.getElem?_append_left (by simp; omega), List.getElem?_append_right (by simp), header_length,
    Nat.add_sub_cancel_left]

theorem wrapped_trailer_at (a : Byte) (p : List Byte) (k : Nat) :
    (wrapped a p)[5 + (escapedBody a p).length + k]? = (trailer a)[k]? := by
  have hlen : (header a ++ escapedBody a p).length = 5 + (escapedBody a p).length := by simp
  rw [wrapped, List.getElem?_append_right (by omega), hlen, Nat.add_sub_cancel_left]

theorem wrapped_at_from_end (a : Byte) (p : List Byte) {k : Nat} (h : k ≤ 5) :
    (wrapped a p)[(wrapped a p).length - k]? = (trailer a)[5 - k]? := by
  rw [← wrapped_trailer_at a p, wrapped_length]
  congr 1
  omega

/-- Settles O12: the body is stuffed, and the header and the trailer hold FF at fixed places. -/
theorem whereDelimiterAndEscapeStand : Obligations.WhereDelimiterAndEscapeStand := by
  intro a p
  refine ⟨fun b => ne_delim_of_mem_stuff, fun k hk => ⟨escape_starts_pair hk, no_escape_before_escape hk⟩, ?_, ?_, ?_,
    wrapped_trailer_at a p 0⟩
  · intro k hk
    have hk' : k = 0 ∨ k = 3 ∨ k = 4 := by simpa using hk
    rw [wrapped_header_at a p (by omega)]
    obtain rfl | rfl | rfl := hk' <;> rfl
  · intro k hk
    have hk' : k = 1 ∨ k = 4 ∨ k = 5 := by simpa using hk
    rw [wrapped_at_from_end a p (by omega)]
    obtain rfl | rfl | rfl := hk' <;> rfl
  · intro k hlo hhi
    obtain ⟨j, rfl⟩ := Nat.exists_eq_add_of_le hlo
    rw [wrapped_body_at a p (by omega)]
    exact fun hFF => ne_delim_of_mem_stuff (List.mem_of_getElem? hFF) rfl

theorem escapedBody_length (a : Byte) (p : List Byte) :
    (escapedBody a p).length = p.length + 2 + escapeCount a p := by
  rw [escapedBody, stuff_length, frame_length, escapeCount]

/-- Settles O13: `escapeCount` counts the frame bytes FE or FF. -/
theorem packetLengths : Obligations.PacketLengths := by
  intro a p
  have hwrapped : (wrapped a p).length = p.length + 12 + escapeCount a p := by
    rw [wrapped_length, escapedBody_length]
    omega
  exact ⟨escapedBody_length a p, hwrapped, encodePacket_length a p⟩

/-- R154: FE and 00 add up to FE, FE and 01 to FF. -/
theorem byteSum_stuff1 (b : Byte) : byteSum (stuff1 b) = b.toNat := by
  rcases stuff1_cases b with ⟨rfl | rfl, _, _, hpair⟩ | ⟨_, _, _, hsame⟩
  · rw [hpair]
    rfl
  · rw [hpair]
    rfl
  · rw [hsame, byteSum_cons, byteSum_nil, Nat.add_zero]

theorem byteSum_stuff (f : List Byte) : byteSum (stuff f) = byteSum f := by
  induction f with
  | nil => rfl
  | cons b f ih => rw [stuff_cons, byteSum_append, byteSum_stuff1, ih, byteSum_cons]

/-- Settles O15: even the sum as a natural number is unchanged. -/
theorem stuffingKeepsTheSum : Obligations.StuffingKeepsTheSum := by
  intro f
  simp only [checksum, byteSum_stuff, and_self]

/-- R151: half of the packet's length is the length of the wrapped sequence. -/
theorem encodePacket_half (a : Byte) (p : List Byte) : (encodePacket a p).length / 2 = (wrapped a p).length := by
  rw [encodePacket, List.length_append]
  omega

/-- Settles O11: the packet is two copies of the wrapped sequence. -/
theorem packetIsItsHalfTwice : Obligations.PacketIsItsHalfTwice := by
  intro a p
  rw [encodePacket_half, encodePacket]
  refine ⟨?_, List.take_left, List.drop_left⟩
  rw [List.length_append]
  omega

theorem wrapped_of_encodePacket {a b : Byte} {p q : List Byte} (h : encodePacket a p = encodePacket b q) :
    wrapped a p = wrapped b q := by
  obtain ⟨_, hp, _⟩ := packetIsItsHalfTwice a p
  obtain ⟨_, hq, _⟩ := packetIsItsHalfTwice b q
  rw [← hp, ← hq, h]

/-- The unstuffer reads the frame off the wrapped sequence. -/
theorem frame_of_wrapped {a b : Byte} {p q : List Byte} (h : wrapped a p = wrapped b q) : frame a p = frame b q := by
  have hp := unstuff_body_of_wrapped a p
  rw [h, unstuff_body_of_wrapped] at hp
  exact (Option.some.inj hp).symm

/-- Settles O16: the packet gives its half, the half its frame, and the frame is the address, the payload and one byte
more. -/
theorem packetDeterminesAddressAndPayload : Obligations.PacketDeterminesAddressAndPayload := by
  intro a b p q h
  have hframe := frame_of_wrapped (wrapped_of_encodePacket h)
  have hdata : packetData a p = packetData b q := List.append_inj_left' hframe rfl
  exact List.cons.inj hdata

/-- Settles O9: the checksum is the byte of the frame after the data. -/
theorem checksumIsTheSumModulo256 : Obligations.ChecksumIsTheSumModulo256 := by
  intro a p
  have hget : (frame a p)[p.length + 1]? = some (checksum (packetData a p)) := List.getElem?_concat_length
  rw [hget, Option.map_some, checksum, BitVec.toNat_ofNat, packetData, byteSum_cons]

/-! ## Acceptance -/

/-- R156: between commands acceptance only loads the registers and puts the sequencer before the first header byte. -/
theorem startPacket_of_atRest {s : State} (e : Dest) (a : Byte) (p : List Byte) (h : s.AtRest) :
    startPacket e a p s = { s.loaded e a p with phase := .hdr } := by
  obtain ⟨_, hpass, hidx, hesc, hrdata⟩ := h
  simp only [startPacket, State.loaded, hpass, hidx, hesc, hrdata]

/-- Settles O20: at the end of the command the sequencer is where acceptance found it. -/
theorem encodeAnswersThePacket : Obligations.EncodeAnswersThePacket := by
  intro s a p hrest hlevel hp
  have hreturn : sendTo .resultPort a p s = finish .ok (encodePacket a p) (s.loaded .resultPort a p) := by
    simp only [sendTo, returnPacket, hlevel]
    rfl
  rw [exec_encode_of_fits a hp, hreturn, finish_of_atRest (s := s.loaded .resultPort a p) .ok _ hrest]

/-- Settles O37. -/
theorem acceptanceStartsTheSequencer : Obligations.AcceptanceStartsTheSequencer := by
  refine ⟨fun s a p hrest hlevel hp => ?_, fun s a p hrest hlevel hp => ?_⟩
  · rw [exec_encode_of_byte a hlevel hp, startPacket_of_atRest .resultPort a p hrest]
  · rw [exec_send_of_byte a hlevel hp, startPacket_of_atRest .txPort a p hrest]

/-! ## One step of the sequencer -/

/-- R183, R247: an error on tx_err ends a transmitting command, whatever tx_ready says. -/
theorem step_of_txErr {s : State} (hrst : s.pinsNow.rst = false) (hb : s.busy = true) (hd : s.dest = .txPort)
    (herr : s.pinsNow.txErr = true) : step s = .next (raise .transportError (tick s)) := by
  rw [step_of_busy hrst hb]
  rcases sequencerStep_modes s with ⟨_, _, habort⟩ | ⟨_, hnone, _⟩ | ⟨hemit, _⟩
  · exact habort
  · simp [herr] at hnone
  · simp [hd, herr] at hemit

/-- Settles O42: abort, wait and emit are the three things a busy SFF does. -/
theorem whenTheSequencerRuns : Obligations.WhenTheSequencerRuns :=
  ⟨fun _ hb hrst hd herr => step_of_txErr hrst hb hd herr,
    fun _ hb hrst hd herr hrdy => step_of_waiting hrst hb hd herr hrdy, fun _ h => step_of_canEmit h⟩

section advance

variable {s : State}

/-- R157, both cases. -/
theorem advanceHdr_of_last (h : s.idx = 4) :
    advanceHdr s = { s with phase := .body, idx := 0, csum := 0, esc := false } := if_pos h

theorem advanceHdr_of_not_last (h : s.idx ≠ 4) : advanceHdr s = { s with idx := s.idx + 1 } := if_neg h

/-- R159, its three cases. -/
theorem advanceTrl_of_lt (h : s.idx < 4) : advanceTrl s = { s with idx := s.idx + 1 } := if_pos h

theorem advanceTrl_of_first_copy (h : s.idx = 4) (hpass : s.pass = false) :
    advanceTrl s = { s with pass := true, phase := .hdr, idx := 0 } := by
  rw [advanceTrl, if_neg (by omega), hpass]
  rfl

theorem advanceTrl_of_second_copy (h : s.idx = 4) (hpass : s.pass = true) : advanceTrl s = finish .ok s.rdata s := by
  rw [advanceTrl, if_neg (by omega), if_pos hpass]

end advance

/-- The accumulation of spec/10_state.md R26 is the sum modulo 256. -/
theorem add_eq_ofNat_mod (x b : Byte) : x + b = BitVec.ofNat 8 ((x.toNat + b.toNat) % 256) := by
  apply BitVec.eq_of_toNat_eq
  simp

/-- The `advance` of R158, both cases. -/
theorem advanceBody_eq_ite (b : Byte) (s : State) : advanceBody b s =
    if s.idx ≤ s.plen then { s with csum := BitVec.ofNat 8 ((s.csum.toNat + b.toNat) % 256), idx := s.idx + 1 }
    else { s with phase := .trl, idx := 0 } := by
  rw [advanceBody, add_eq_ofNat_mod]

section emit

variable {s : State} {b : Byte} (h : s.CanEmit)
include h

theorem step_of_hdr (hp : s.phase = .hdr) (hb : (header s.addr)[s.idx]? = some b) :
    step s = .next (advanceHdr (out b (tick s))) := by
  rw [step_of_canEmit h]
  simp only [emitByte, stepHdr, tick_phase, tick_addr, tick_idx, hp, hb]

theorem step_of_trl (hp : s.phase = .trl) (hb : (trailer s.addr)[s.idx]? = some b) :
    step s = .next (advanceTrl (out b (tick s))) := by
  rw [step_of_canEmit h]
  simp only [emitByte, stepTrl, tick_phase, tick_addr, tick_idx, hp, hb]

/-- R158, a step in BODY: the second byte of a pair, the first byte of a pair, or a plain byte. -/
theorem step_of_body (hp : s.phase = .body) (hb : frameByte s = some b) :
    step s =
      if s.esc then
        .next (advanceBody b
          { out (if b = Config.escMarker then Config.escFE else Config.escFF) (tick s) with esc := false })
      else if Config.escMarker ≤ b then .next { out Config.escMarker (tick s) with esc := true }
      else .next (advanceBody b (out b (tick s))) := by
  have hview : frameByte (tick s) = some b := hb
  rw [step_of_canEmit h]
  simp only [emitByte, stepBody, tick_phase, tick_esc, hp, hview]

end emit

/-- Settles O45. -/
theorem headerStep : Obligations.HeaderStep := by
  intro s b hemit hp hb
  have hidx : (out b (tick s)).idx = s.idx := out_idx b (tick s)
  rw [step_of_hdr hemit hp hb]
  refine ⟨fun h4 => ?_, fun h4 => ?_⟩
  · rw [advanceHdr_of_last (hidx.trans h4)]
  · rw [advanceHdr_of_not_last (hidx.trans_ne h4), hidx]

/-- Settles O46. -/
theorem bodyStep : Obligations.BodyStep := by
  intro s b hemit hp hb advance
  have hadvance (u : State) (hidx : u.idx = s.idx) (hplen : u.plen = s.plen) (hcsum : u.csum = s.csum) :
      advanceBody b u = advance u := by
    simp only [advanceBody_eq_ite, advance, hidx, hplen, hcsum]
  have hmarker : Config.escMarker ≤ b ↔ 0xFE ≤ b.toNat := BitVec.le_def
  rw [step_of_body hemit hp hb]
  refine ⟨fun hesc => ?_, fun hesc hge => ?_, fun hesc hlt => ?_⟩
  · rw [if_pos hesc]
    exact congrArg _ (hadvance _ (out_idx _ (tick s)) (out_plen _ (tick s)) (out_csum _ (tick s)))
  · rw [if_neg (by simp [hesc]), if_pos (hmarker.2 hge)]
    rfl
  · rw [if_neg (by simp [hesc]), if_neg (fun hge => absurd (hmarker.1 hge) (by omega)),
      hadvance _ (out_idx _ (tick s)) (out_plen _ (tick s)) (out_csum _ (tick s))]

/-- Settles O47. -/
theorem trailerStep : Obligations.TrailerStep := by
  intro s b hemit hp hb
  have hidx : (out b (tick s)).idx = s.idx := out_idx b (tick s)
  have hpass : (out b (tick s)).pass = s.pass := out_pass b (tick s)
  rw [step_of_trl hemit hp hb]
  refine ⟨fun hlt => ?_, fun h4 hfirst => ?_, fun h4 hsecond => ?_⟩
  · rw [advanceTrl_of_lt (hidx.trans_lt hlt), hidx]
  · rw [advanceTrl_of_first_copy (hidx.trans h4) (hpass.trans hfirst)]
  · rw [advanceTrl_of_second_copy (hidx.trans h4) (hpass.trans hsecond)]
    rfl

end Sys2Proof.Proofs.PacketCodec

/-! PROOFS. The statements of spec/42_bus_transport.md: SEND on a channel that fails while the bytes go out (R183, R184,
R243), and SEND at the transaction level under either draw (R181 to R183). -/

namespace Sys2Proof.Proofs.BusTransport

open Sys2Proof Sys2Proof.Machine Sys2Proof.Proofs.Scope Sys2Proof.Proofs.Memory Sys2Proof.Proofs.SegmentFont
  Sys2Proof.Proofs.PacketCodec

/-! ## A channel that fails at the byte level -/

/-- R183, R243: on a channel that takes as many bytes of what is left as there are ready steps and then reports an
error, the command ends with TransportError and these bytes stay in `tx`. -/
theorem run_aborts {s : State} (hs : s.Inv) (hb : s.busy = true) (hd : s.dest = .txPort) (n : Nat)
    (hquiet : s.QuietFor n) (hn : s.readyCount n < s.left.length) (hrst : (s.pinsAt n).rst = false)
    (herr : (s.pinsAt n).txErr = true) :
    ∃ u, run (n + 1) s = .next u ∧ u.tx = s.tx ++ s.left.take (s.readyCount n) ∧
      u.result = some ⟨.transportError, []⟩ ∧ u.AtRest ∧ u.cmdPort = s.cmdPort := by
  obtain ⟨v, hrun, hsent, hpins⟩ := run_hasSent (s := { s with result := none }) hs hb hd rfl n hquiet hn
  have hnow : v.pinsNow = s.pinsAt n := by rw [← pinsAt_zero, hpins]; rfl
  rw [← hnow] at hrst herr
  have hstep := step_of_txErr hrst hsent.busy hsent.dest herr
  refine ⟨raise .transportError (tick v), ?_, hsent.tx, rfl, ⟨rfl, rfl, rfl, rfl, rfl⟩, hsent.cmdPort⟩
  rw [← run_succ_congr n (step_without_result s), run_add n 1 hrun, run_succ 0 hstep, run_zero]

/-- Settles O59: acceptance leaves the whole packet to be sent. -/
theorem abortedSendLeavesAPrefix : Obligations.AbortedSendLeavesAPrefix := by
  intro s a p n hrest hlevel hsizes hp hquiet hn hrst herr
  have hleft := startPacket_left .txPort a p s
  obtain ⟨u, hrun, hend⟩ := run_aborts (s := startPacket .txPort a p s)
    (startPacket_inv _ a (inv_of_atRest hrest hsizes) hp) rfl rfl n hquiet (hleft ▸ hn) hrst herr
  rw [hleft] at hend
  exact ⟨_, u, exec_send_of_byte a hlevel hp, hrun, hend⟩

/-! ## SEND at the transaction level -/

/-- R181: a payload that fits is transmitted. -/
theorem exec_send_of_fits {s : State} (a : Byte) {p : List Byte} (hp : p.length ≤ s.par.pmax) :
    exec (.send a p) s = .next (transmit a p s) :=
  congrArg _ (if_neg (Nat.not_lt.2 hp))

/-- R182: at the transaction level a payload that fits is handed to the channel in the step of acceptance. -/
theorem exec_send_of_transaction {s : State} (a : Byte) {p : List Byte} (hlevel : s.level = .transaction)
    (hp : p.length ≤ s.par.pmax) :
    exec (.send a p) s = .next (handOver (encodePacket a p) (startPacket .txPort a p s)) := by
  rw [exec_send_of_fits a hp, transmit, hlevel]

/-- Between commands a command that loads the registers and ends in the same step leaves the sequencer at rest: beside
the loaded registers only `tx`, the draws and the result port differ. -/
theorem finish_startPacket_of_atRest {s : State} (k : Status) (l : List Byte) (e : Dest) (a : Byte) (p : List Byte)
    (tx : List Byte) (draws : List (Option Nat)) (h : s.AtRest) :
    finish k l { startPacket e a p s with tx := tx, draws := draws } =
      { s.loaded e a p with tx := tx, draws := draws, result := some ⟨k, l⟩ } :=
  finish_of_atRest (s := { s.loaded e a p with tx := tx, draws := draws }) k l h

/-- Settles O21. -/
theorem sendAppendsThePacket : Obligations.SendAppendsThePacket := by
  intro s a p hrest hlevel hp hdraw
  rw [exec_send_of_transaction a hlevel hp, handOver_eq, drawNow_startPacket, hdraw]
  exact congrArg _ (finish_startPacket_of_atRest .ok [] .txPort a p _ _ hrest)

/-- Settles O22: at `k` the packet's length the whole packet is out and the command still fails. -/
theorem sendFailsWithAPrefix : Obligations.SendFailsWithAPrefix := by
  intro s a p k hrest hlevel hp hdraw _
  rw [exec_send_of_transaction a hlevel hp, handOver_eq, drawNow_startPacket, hdraw]
  exact congrArg _ (finish_startPacket_of_atRest .transportError [] .txPort a p _ _ hrest)

end Sys2Proof.Proofs.BusTransport

/-! PROOFS. The statements of spec/43_display_driver.md: WRDIG is WRSTR of the digits' characters, WRSTR is WRSEG of its
characters' masks, and WRSEG is SEND of the reversed payload (R104, R208). So what the three append to `tx` (R201 to
R203) is what SEND appends, `sendAppendsThePacket`. -/

namespace Sys2Proof.Proofs.DisplayDriver

open Sys2Proof Sys2Proof.Machine Sys2Proof.Proofs.Encoding Sys2Proof.Proofs.SegmentFont Sys2Proof.Proofs.BusTransport

/-! ## Each command as the next one -/

/-- R104: after its range checks WRSEG is SEND of the reversed payload. -/
theorem exec_wrseg_of_masks (a : Byte) {l m r : Byte} (s : State) (hl : l.toNat ≤ 0x7F) (hm : m.toNat ≤ 0x7F)
    (hr : r.toNat ≤ 0x7F) : exec (.wrseg a [l, m, r]) s = exec (.send a (seg3Payload l m r)) s := by
  have hmasks : (validMask l && validMask m && validMask r) = true := by
    simp only [(validMask_iff _).2, hl, hm, hr, Bool.and_self]
  exact congrArg _ (if_pos hmasks)

/-- Three characters with a font index are shown as WRSEG shows their masks. -/
theorem performChars_eq_wrseg (a : Byte) {cl cm cr : Byte} {kl km kr : Fin 37} (s : State) (hl : fidx cl = some kl)
    (hm : fidx cm = some km) (hr : fidx cr = some kr) :
    .next (performChars a cl cm cr s) =
      exec (.wrseg a [zext8 (fontRead s.par kl), zext8 (fontRead s.par km), zext8 (fontRead s.par kr)]) s := by
  simp only [performChars, mask_of_fidx _ _ _ hl, mask_of_fidx _ _ _ hm, mask_of_fidx _ _ _ hr]
  rfl

/-- R203, R101: WRSTR with the padded string written out. -/
theorem exec_wrstr_of_pad3 (a : Byte) {o : List Byte} {cl cm cr : Byte} (s : State) (ho : o.length ≤ 3)
    (hpad : pad3 o = [cl, cm, cr]) : exec (.wrstr a o) s = .next (performChars a cl cm cr s) := by
  rw [exec_wrstr_of_short a s ho, hpad]
  rfl

/-- R104: WRSTR of supported characters is WRSEG of their masks. -/
theorem exec_wrstr_of_fidx (a : Byte) {o : List Byte} {cl cm cr : Byte} {kl km kr : Fin 37} (s : State)
    (ho : o.length ≤ 3) (hpad : pad3 o = [cl, cm, cr]) (hl : fidx cl = some kl) (hm : fidx cm = some km)
    (hr : fidx cr = some kr) :
    exec (.wrstr a o) s =
      exec (.wrseg a [zext8 (fontRead s.par kl), zext8 (fontRead s.par km), zext8 (fontRead s.par kr)]) s := by
  rw [exec_wrstr_of_pad3 a s ho hpad, performChars_eq_wrseg a s hl hm hr]

theorem validDigit_ofNat (d : Fin 15) : validDigit (BitVec.ofNat 8 d.val) = true := by
  rw [validDigit_iff, BitVec.toNat_ofNat]
  omega

/-- R208: after its range checks WRDIG is WRSTR of the digits' characters. -/
theorem exec_wrdig_eq_wrstr (a : Byte) (l m r : Fin 15) (s : State) :
    exec (.wrdig a [BitVec.ofNat 8 l, BitVec.ofNat 8 m, BitVec.ofNat 8 r]) s =
      exec (.wrstr a [hexchar (BitVec.ofNat 8 l), hexchar (BitVec.ofNat 8 m), hexchar (BitVec.ofNat 8 r)]) s := by
  rw [exec_wrstr_of_pad3 a s le_rfl rfl]
  simp only [exec, execWrdig, validDigit_ofNat, Bool.and_self, if_true]

/-- R100: the font index of a digit's character. -/
abbrev digitIndex (d : Fin 15) : Fin 37 := ⟨d.val + 1, by omega⟩

/-- R104: WRDIG of valid digits is WRSEG of the masks FONT[digit + 1]. -/
theorem exec_wrdig_eq_wrseg (a : Byte) (l m r : Fin 15) (s : State) :
    exec (.wrdig a [BitVec.ofNat 8 l, BitVec.ofNat 8 m, BitVec.ofNat 8 r]) s =
      exec (.wrseg a [zext8 (fontRead s.par (digitIndex l)), zext8 (fontRead s.par (digitIndex m)),
        zext8 (fontRead s.par (digitIndex r))]) s := by
  rw [exec_wrdig_eq_wrstr,
    exec_wrstr_of_fidx a s le_rfl rfl (fidx_hexchar l) (fidx_hexchar m) (fidx_hexchar r)]

/-! ## The statements -/

/-- Settles O30. -/
theorem driverCommandsExpand : Obligations.DriverCommandsExpand :=
  ⟨fun s a _ _ _ hl hm hr => exec_wrseg_of_masks a s hl hm hr,
    fun s a l m r => ⟨exec_wrdig_eq_wrseg a l m r s, exec_wrdig_eq_wrstr a l m r s⟩,
    fun s a _ _ _ _ _ _ _ ho hpad hl hm hr => exec_wrstr_of_fidx a s ho hpad hl hm hr⟩

/-- Settles O23: the five bytes fit, since PMAX is at least 5. -/
theorem wrsegSendsTheMasks : Obligations.WrsegSendsTheMasks := by
  intro s a l m r hrest hlevel hdraw hl hm hr
  rw [exec_wrseg_of_masks a s hl hm hr]
  exact sendAppendsThePacket s a (seg3Payload l m r) hrest hlevel (pmax_ge_five s.par) hdraw

/-- Settles O24: a mask of the font passes WRSEG's range check (R126). -/
theorem wrdigSendsTheDigits : Obligations.WrdigSendsTheDigits := by
  intro s a l m r hrest hlevel hdraw
  rw [exec_wrdig_eq_wrseg]
  exact wrsegSendsTheMasks s a _ _ _ hrest hlevel hdraw (toNat_zext8_le _) (toNat_zext8_le _) (toNat_zext8_le _)

/-- Settles O25: a mask of the font passes WRSEG's range check (R126). -/
theorem wrstrSendsTheString : Obligations.WrstrSendsTheString := by
  intro s a o cl cm cr kl km kr hrest hlevel hdraw ho hpad hl hm hr
  rw [exec_wrstr_of_fidx a s ho hpad hl hm hr]
  exact wrsegSendsTheMasks s a _ _ _ hrest hlevel hdraw (toNat_zext8_le _) (toNat_zext8_le _) (toNat_zext8_le _)

end Sys2Proof.Proofs.DisplayDriver

/-! PROOFS. The statements of spec/60_exceptions.md: what makes a command fail (R232 to R235), how every command ends at
the transaction level (R230, R238), what an error leaves unchanged (R240, R241), and where TransportError comes from
(R236). The causes of the validation failures are listed once, as `RefusedWith`; the statements are read off the two
lemmas about it: a refused command raises its error (`exec_of_refused`), and any other one answers or hands over a
packet (`exec_endsIn`). -/

namespace Sys2Proof.Proofs.Exceptions

open Sys2Proof Sys2Proof.Machine Sys2Proof.Proofs.Scope Sys2Proof.Proofs.Encoding Sys2Proof.Proofs.SegmentFont
  Sys2Proof.Proofs.PacketCodec Sys2Proof.Proofs.BusTransport Sys2Proof.Proofs.DisplayDriver

/-! ## The causes of a validation failure -/

/-- R232 to R235: the causes of InvalidInput, OutOfRange, UnsupportedCharacter and IllegalCommand, for a given PMAX. -/
inductive RefusedWith (pmax : Nat) : Instr → Status → Prop
  | lookupCount {a : Byte} {o : List Byte} (h : o.length ≠ 1) : RefusedWith pmax (.lookup a o) .invalidInput
  | lookupChar {a c : Byte} (h : fidx c = none) : RefusedWith pmax (.lookup a [c]) .unsupportedCharacter
  | encodeLong {a : Byte} {o : List Byte} (h : pmax < o.length) : RefusedWith pmax (.encode a o) .illegalCommand
  | sendLong {a : Byte} {o : List Byte} (h : pmax < o.length) : RefusedWith pmax (.send a o) .illegalCommand
  | wrsegCount {a : Byte} {o : List Byte} (h : o.length ≠ 3) : RefusedWith pmax (.wrseg a o) .illegalCommand
  | wrsegMask {a l m r : Byte} (h : 0x80 ≤ l.toNat ∨ 0x80 ≤ m.toNat ∨ 0x80 ≤ r.toNat) :
      RefusedWith pmax (.wrseg a [l, m, r]) .outOfRange
  | wrdigCount {a : Byte} {o : List Byte} (h : o.length ≠ 3) : RefusedWith pmax (.wrdig a o) .illegalCommand
  | wrdigDigit {a l m r : Byte} (h : 0x0F ≤ l.toNat ∨ 0x0F ≤ m.toNat ∨ 0x0F ≤ r.toNat) :
      RefusedWith pmax (.wrdig a [l, m, r]) .outOfRange
  | wrstrLong {a : Byte} {o : List Byte} (h : 3 < o.length) : RefusedWith pmax (.wrstr a o) .invalidInput
  | wrstrChar {a c : Byte} {o : List Byte} (hlen : o.length ≤ 3) (hmem : c ∈ o) (h : fidx c = none) :
      RefusedWith pmax (.wrstr a o) .unsupportedCharacter
  | seg3 {a : Byte} {o : List Byte} : RefusedWith pmax (.seg3 a o) .illegalCommand

/-- R238: the causes respect the table of which operation can end with which status. -/
theorem RefusedWith.allowed {pmax : Nat} {i : Instr} {k : Status} (h : RefusedWith pmax i k) :
    k ∈ allowedStatuses i := by
  cases h <;> simp [allowedStatuses]

/-- R233. -/
theorem RefusedWith.outOfRange_cases {pmax : Nat} {i : Instr} (h : RefusedWith pmax i .outOfRange) :
    (∃ a l m r, i = .wrseg a [l, m, r] ∧ (0x80 ≤ l.toNat ∨ 0x80 ≤ m.toNat ∨ 0x80 ≤ r.toNat)) ∨
    (∃ a l m r, i = .wrdig a [l, m, r] ∧ (0x0F ≤ l.toNat ∨ 0x0F ≤ m.toNat ∨ 0x0F ≤ r.toNat)) := by
  cases h with
  | wrsegMask hmask => exact .inl ⟨_, _, _, _, rfl, hmask⟩
  | wrdigDigit hdigit => exact .inr ⟨_, _, _, _, rfl, hdigit⟩

/-- R236: the channel is no cause of a validation failure. -/
theorem RefusedWith.ne_transportError {pmax : Nat} {i : Instr} {k : Status} (h : RefusedWith pmax i k) :
    k ≠ .transportError := by
  cases h <;> simp

/-! ## A refused command raises its error -/

theorem exec_wrseg_of_bad_mask (a : Byte) {l m r : Byte} (s : State)
    (h : 0x80 ≤ l.toNat ∨ 0x80 ≤ m.toNat ∨ 0x80 ≤ r.toNat) :
    exec (.wrseg a [l, m, r]) s = .next (raise .outOfRange s) := by
  rcases performWrseg_cases a l m r s with ⟨_, hraise⟩ | ⟨hmasks, _⟩
  · exact congrArg _ hraise
  · omega

theorem exec_wrdig_of_bad_digit (a : Byte) {l m r : Byte} (s : State)
    (h : 0x0F ≤ l.toNat ∨ 0x0F ≤ m.toNat ∨ 0x0F ≤ r.toNat) :
    exec (.wrdig a [l, m, r]) s = .next (raise .outOfRange s) := by
  have hdigits : ¬(validDigit l && validDigit m && validDigit r) = true := by
    simp only [Bool.and_eq_true, validDigit_iff]
    omega
  exact if_neg hdigits

/-- R203: one unsupported character of the three is enough. -/
theorem performChars_of_unsupported (a : Byte) {c cl cm cr : Byte} (s : State) (hmem : c ∈ [cl, cm, cr])
    (hc : fidx c = none) : performChars a cl cm cr s = raise .unsupportedCharacter s := by
  rcases performChars_cases a cl cm cr s with ⟨_, hraise⟩ | ⟨kl, km, kr, hl, hm, hr, _⟩
  · exact hraise
  · simp only [List.mem_cons, List.not_mem_nil, or_false] at hmem
    rcases hmem with rfl | rfl | rfl
    · simp [hc] at hl
    · simp [hc] at hm
    · simp [hc] at hr

/-- R101: padding keeps the string's characters and adds spaces only. -/
theorem mem_pad3_of_mem {c : Byte} {o : List Byte} (h : c ∈ o) : c ∈ pad3 o := List.mem_append_left _ h

theorem mem_or_space_of_mem_pad3 {c : Byte} {o : List Byte} (h : c ∈ pad3 o) : c ∈ o ∨ c = Config.space :=
  (List.mem_append.1 h).imp_right List.eq_of_mem_replicate

theorem pad3_eq_three {o : List Byte} (h : o.length ≤ 3) : ∃ cl cm cr, pad3 o = [cl, cm, cr] :=
  List.length_eq_three.1 (pad3_length h)

theorem exec_wrstr_of_unsupported (a : Byte) {c : Byte} {o : List Byte} (s : State) (hlen : o.length ≤ 3)
    (hmem : c ∈ o) (hc : fidx c = none) : exec (.wrstr a o) s = .next (raise .unsupportedCharacter s) := by
  obtain ⟨cl, cm, cr, hpad⟩ := pad3_eq_three hlen
  rw [exec_wrstr_of_pad3 a s hlen hpad, performChars_of_unsupported a s (hpad ▸ mem_pad3_of_mem hmem) hc]

/-- R240: in any state and at either level a refused command ends at once with its error. -/
theorem exec_of_refused {i : Instr} {k : Status} (s : State) (h : RefusedWith s.par.pmax i k) :
    exec i s = .next (raise k s) := by
  cases h with
  | lookupCount h => exact exec_lookup_of_count _ s h
  | lookupChar h => exact exec_lookup_of_unsupported _ s h
  | encodeLong h => exact exec_encode_of_long _ s h
  | sendLong h => exact exec_send_of_long _ s h
  | wrsegCount h => exact exec_wrseg_of_count _ s h
  | wrsegMask h => exact exec_wrseg_of_bad_mask _ s h
  | wrdigCount h => exact exec_wrdig_of_count _ s h
  | wrdigDigit h => exact exec_wrdig_of_bad_digit _ s h
  | wrstrLong h => exact exec_wrstr_of_long _ s h
  | wrstrChar hlen hmem h => exact exec_wrstr_of_unsupported _ s hlen hmem h
  | seg3 => exact exec_seg3 _ _ s

/-- R241: between commands it writes the result port alone. -/
theorem exec_of_refused_atRest {i : Instr} {k : Status} {s : State} (hs : s.AtRest)
    (h : RefusedWith s.par.pmax i k) : exec i s = .next { s with result := some ⟨k, []⟩ } := by
  rw [exec_of_refused s h, raise_of_atRest k hs]

/-! ## How a command ends at the transaction level -/

/-- R236: the commands that hand a packet to the channel. -/
def Transmits (i : Instr) : Prop := ∃ a o, i = .send a o ∨ i = .wrseg a o ∨ i = .wrdig a o ∨ i = .wrstr a o

/-- The ends of a command at the transaction level: refused, answered with data (R34), or a packet handed to the channel
whole or in part (R182, R183). -/
inductive EndsIn (s : State) : Instr → State → Prop
  | refused {i : Instr} {k : Status} (h : RefusedWith s.par.pmax i k) : EndsIn s i (raise k s)
  | lookedUp {a c : Byte} {k : Fin 37} (hc : fidx c = some k) :
      EndsIn s (.lookup a [c]) (finish .ok [zext8 (fontRead s.par k)] s)
  | encoded {a : Byte} {p : List Byte} :
      EndsIn s (.encode a p) (finish .ok (encodePacket a p) (startPacket .resultPort a p s))
  | sent {i : Instr} {p : List Byte} (hi : Transmits i) (hp : p.length ≤ s.par.pmax) (hdraw : s.drawNow = none) :
      EndsIn s i (finish .ok [] { startPacket .txPort i.addr p s with
        tx := s.tx ++ encodePacket i.addr p, draws := s.draws.tail })
  | failed {i : Instr} {p : List Byte} {k : Nat} (hi : Transmits i) (hp : p.length ≤ s.par.pmax)
      (hdraw : s.drawNow = some k) :
      EndsIn s i (finish .transportError [] { startPacket .txPort i.addr p s with
        tx := s.tx ++ (encodePacket i.addr p).take k, draws := s.draws.tail })

theorem exec_endsIn_of_refused {i : Instr} {k : Status} {s : State} (h : RefusedWith s.par.pmax i k) :
    ∃ t, exec i s = .next t ∧ EndsIn s i t :=
  ⟨_, exec_of_refused s h, .refused h⟩

theorem exec_lookup_endsIn (a : Byte) (o : List Byte) (s : State) :
    ∃ t, exec (.lookup a o) s = .next t ∧ EndsIn s (.lookup a o) t := by
  by_cases hcount : o.length = 1
  · obtain ⟨c, rfl⟩ := List.length_eq_one_iff.1 hcount
    cases hc : fidx c with
    | none => exact exec_endsIn_of_refused (.lookupChar hc)
    | some k => exact ⟨_, exec_lookup_of_supported a s hc, .lookedUp hc⟩
  · exact exec_endsIn_of_refused (.lookupCount hcount)

section transaction

variable {s : State} (hlevel : s.level = .transaction)
include hlevel

/-- A command that does what SEND does with a payload that fits ends as the channel's draw says. -/
theorem exec_endsIn_of_eq_send {i : Instr} {p : List Byte} (hi : Transmits i) (hp : p.length ≤ s.par.pmax)
    (hexec : exec i s = exec (.send i.addr p) s) : ∃ t, exec i s = .next t ∧ EndsIn s i t := by
  refine ⟨_, hexec.trans (exec_send_of_transaction i.addr hlevel hp), ?_⟩
  rw [handOver_eq, drawNow_startPacket]
  cases hdraw : s.drawNow with
  | none => exact .sent hi hp hdraw
  | some k => exact .failed hi hp hdraw

theorem exec_endsIn_of_eq_wrseg {i : Instr} {l m r : Byte} (hi : Transmits i) (hl : l.toNat ≤ 0x7F)
    (hm : m.toNat ≤ 0x7F) (hr : r.toNat ≤ 0x7F) (hexec : exec i s = exec (.wrseg i.addr [l, m, r]) s) :
    ∃ t, exec i s = .next t ∧ EndsIn s i t :=
  exec_endsIn_of_eq_send hlevel (p := seg3Payload l m r) hi (pmax_ge_five s.par)
    (hexec.trans (exec_wrseg_of_masks i.addr s hl hm hr))

theorem exec_encode_endsIn (a : Byte) (p : List Byte) :
    ∃ t, exec (.encode a p) s = .next t ∧ EndsIn s (.encode a p) t := by
  rcases Nat.lt_or_ge s.par.pmax p.length with hlong | hp
  · exact exec_endsIn_of_refused (.encodeLong hlong)
  · refine ⟨_, exec_encode_of_fits a hp, ?_⟩
    have hreturn : sendTo .resultPort a p s = finish .ok (encodePacket a p) (startPacket .resultPort a p s) := by
      simp only [sendTo, returnPacket, hlevel]
    exact hreturn ▸ .encoded

theorem exec_send_endsIn (a : Byte) (p : List Byte) : ∃ t, exec (.send a p) s = .next t ∧ EndsIn s (.send a p) t := by
  rcases Nat.lt_or_ge s.par.pmax p.length with hlong | hp
  · exact exec_endsIn_of_refused (.sendLong hlong)
  · exact exec_endsIn_of_eq_send hlevel ⟨a, p, .inl rfl⟩ hp rfl

theorem exec_wrseg_endsIn (a : Byte) (o : List Byte) :
    ∃ t, exec (.wrseg a o) s = .next t ∧ EndsIn s (.wrseg a o) t := by
  by_cases hcount : o.length = 3
  · obtain ⟨l, m, r, rfl⟩ := List.length_eq_three.1 hcount
    by_cases hbad : 0x80 ≤ l.toNat ∨ 0x80 ≤ m.toNat ∨ 0x80 ≤ r.toNat
    · exact exec_endsIn_of_refused (.wrsegMask hbad)
    · exact exec_endsIn_of_eq_wrseg hlevel ⟨a, _, .inr (.inl rfl)⟩ (by omega) (by omega) (by omega) rfl
  · exact exec_endsIn_of_refused (.wrsegCount hcount)

theorem exec_wrdig_endsIn (a : Byte) (o : List Byte) :
    ∃ t, exec (.wrdig a o) s = .next t ∧ EndsIn s (.wrdig a o) t := by
  by_cases hcount : o.length = 3
  · obtain ⟨l, m, r, rfl⟩ := List.length_eq_three.1 hcount
    by_cases hbad : 0x0F ≤ l.toNat ∨ 0x0F ≤ m.toNat ∨ 0x0F ≤ r.toNat
    · exact exec_endsIn_of_refused (.wrdigDigit hbad)
    · have hexec := exec_wrdig_eq_wrseg a ⟨l.toNat, by omega⟩ ⟨m.toNat, by omega⟩ ⟨r.toNat, by omega⟩ s
      simp only [BitVec.ofNat_toNat, BitVec.setWidth_eq] at hexec
      exact exec_endsIn_of_eq_wrseg hlevel ⟨a, _, .inr (.inr (.inl rfl))⟩ (toNat_zext8_le _) (toNat_zext8_le _)
        (toNat_zext8_le _) hexec
  · exact exec_endsIn_of_refused (.wrdigCount hcount)

theorem exec_wrstr_endsIn (a : Byte) (o : List Byte) :
    ∃ t, exec (.wrstr a o) s = .next t ∧ EndsIn s (.wrstr a o) t := by
  rcases Nat.lt_or_ge 3 o.length with hlong | hlen
  · exact exec_endsIn_of_refused (.wrstrLong hlong)
  · by_cases hbad : ∃ c ∈ o, fidx c = none
    · obtain ⟨c, hmem, hc⟩ := hbad
      exact exec_endsIn_of_refused (.wrstrChar hlen hmem hc)
    · obtain ⟨cl, cm, cr, hpad⟩ := pad3_eq_three hlen
      have hindex (c : Byte) (hc : c ∈ pad3 o) : ∃ k, fidx c = some k := by
        rcases mem_or_space_of_mem_pad3 hc with hmem | rfl
        · exact Option.ne_none_iff_exists'.1 fun hnone => hbad ⟨c, hmem, hnone⟩
        · exact ⟨0, fidx_space⟩
      obtain ⟨kl, hl⟩ := hindex cl (by simp [hpad])
      obtain ⟨km, hm⟩ := hindex cm (by simp [hpad])
      obtain ⟨kr, hr⟩ := hindex cr (by simp [hpad])
      exact exec_endsIn_of_eq_wrseg hlevel ⟨a, o, .inr (.inr (.inr rfl))⟩ (toNat_zext8_le _) (toNat_zext8_le _)
        (toNat_zext8_le _) (exec_wrstr_of_fidx a s hlen hpad hl hm hr)

/-- R230: no command is without an end, and there is no end but these. -/
theorem exec_endsIn (i : Instr) : ∃ t, exec i s = .next t ∧ EndsIn s i t := by
  cases i with
  | lookup a o => exact exec_lookup_endsIn a o s
  | encode a o => exact exec_encode_endsIn hlevel a o
  | send a o => exact exec_send_endsIn hlevel a o
  | wrseg a o => exact exec_wrseg_endsIn hlevel a o
  | wrdig a o => exact exec_wrdig_endsIn hlevel a o
  | wrstr a o => exact exec_wrstr_endsIn hlevel a o
  | seg3 a o => exact exec_endsIn_of_refused .seg3

theorem endsIn_of_exec {i : Instr} {t : State} (hexec : exec i s = .next t) : EndsIn s i t := by
  obtain ⟨u, hu, hends⟩ := exec_endsIn hlevel i
  cases hexec.symm.trans hu
  exact hends

end transaction

/-- A status other than OK and TransportError is that of a refusal. -/
theorem EndsIn.refusedWith {s t : State} {i : Instr} {r : Result} (h : EndsIn s i t) (hr : t.result = some r)
    (hok : r.status ≠ .ok) (herr : r.status ≠ .transportError) : RefusedWith s.par.pmax i r.status := by
  cases h with
  | refused h =>
    cases hr
    exact h
  | lookedUp => cases hr; exact absurd rfl hok
  | encoded => cases hr; exact absurd rfl hok
  | sent => cases hr; exact absurd rfl hok
  | failed => cases hr; exact absurd rfl herr

/-- The statuses of a command that hands over a packet (R238). -/
theorem Transmits.allowed {i : Instr} (h : Transmits i) :
    .ok ∈ allowedStatuses i ∧ .transportError ∈ allowedStatuses i := by
  obtain ⟨a, o, rfl | rfl | rfl | rfl⟩ := h <;> simp [allowedStatuses]

/-! ## The statements -/

/-- Settles O28: only a refusal ends with OutOfRange, and it has just these two causes. -/
theorem outOfRangeExactly : Obligations.OutOfRangeExactly := by
  refine ⟨fun s a l m r hs hmask => exec_of_refused_atRest hs (.wrsegMask hmask),
    fun s a l m r hs hdigit => exec_of_refused_atRest hs (.wrdigDigit hdigit), fun s t i data hlevel hexec hres => ?_⟩
  have hrefused := (endsIn_of_exec hlevel hexec).refusedWith hres (by simp) (by simp)
  exact hrefused.outOfRange_cases

/-- Settles O29. -/
theorem unsupportedStringIsRefused : Obligations.UnsupportedStringIsRefused :=
  fun _ _ _ _ hs hlen hmem hc => exec_of_refused_atRest hs (.wrstrChar hlen hmem hc)

/-- Settles O32: each of the ends puts one result on the port and the sequencer in IDLE. -/
theorem everyCommandEndsWithAStatusOfItsRow : Obligations.EveryCommandEndsWithAStatusOfItsRow := by
  intro i s hlevel _
  obtain ⟨t, hexec, hends⟩ := exec_endsIn hlevel i
  cases hends with
  | refused h => exact ⟨_, _, hexec, rfl, h.allowed, rfl, fun hdata => absurd rfl hdata⟩
  | lookedUp => exact ⟨_, _, hexec, rfl, by simp [allowedStatuses], rfl, fun _ => ⟨rfl, .inl ⟨_, _, rfl⟩⟩⟩
  | encoded => exact ⟨_, _, hexec, rfl, by simp [allowedStatuses], rfl, fun _ => ⟨rfl, .inr ⟨_, _, rfl⟩⟩⟩
  | sent hi => exact ⟨_, _, hexec, rfl, hi.allowed.1, rfl, fun hdata => absurd rfl hdata⟩
  | failed hi => exact ⟨_, _, hexec, rfl, hi.allowed.2, rfl, fun hdata => absurd rfl hdata⟩

/-- Settles O33. -/
theorem numericCodes : Obligations.NumericCodes := by
  refine ⟨rfl, fun k => ?_, rfl, rfl⟩
  cases k <;> decide

/-- Settles O34: such a status is that of a refusal, which writes the result port alone. -/
theorem validationFailureSendsNothing : Obligations.ValidationFailureSendsNothing := by
  intro i s t r hlevel hs hexec hres hok herr
  have hrefused := (endsIn_of_exec hlevel hexec).refusedWith hres hok herr
  exact Host.Outcome.next.inj (hexec.symm.trans (exec_of_refused_atRest hs hrefused))

/-- Settles O35: of the ends only a packet handed over in part has this status. -/
theorem transportErrorExactly : Obligations.TransportErrorExactly := by
  intro i s t data hlevel hexec hres
  cases endsIn_of_exec hlevel hexec with
  | refused h =>
    cases hres
    exact absurd rfl h.ne_transportError
  | lookedUp => cases hres
  | encoded => cases hres
  | sent => cases hres
  | failed hi hp hdraw =>
    cases hres
    exact ⟨rfl, hi, _, _, hdraw, hp, rfl⟩

end Sys2Proof.Proofs.Exceptions

/-! PROOFS. The statements of spec/70_reset_and_hazards.md: a step with the reset input asserted (R270 to R273), and
the state after reset. -/

namespace Sys2Proof.Proofs.Reset

open Sys2Proof Sys2Proof.Machine Sys2Proof.Proofs.StateRules Sys2Proof.Proofs.Memory

/-- R270: reset comes before the sequencer and before the command port. -/
theorem step_of_reset {s : State} (hrst : s.pinsNow.rst = true) : step s = .next (assertReset s) := by
  simp [step, hrst]

theorem txValid_of_idle {s : State} (hidle : s.phase = .idle) : s.txValid = false := by
  simp [State.txValid, busy_of_idle hidle]

/-- Settles O49: the step is `assertReset` whatever the state is; READY and tx_valid follow from PHASE, the other values
are the ones it writes. -/
theorem resetInputClearsTheMachine : Obligations.ResetInputClearsTheMachine := fun s hrst =>
  have hidle : (assertReset s).phase = .idle := assertReset_phase s
  ⟨assertReset s, step_of_reset hrst, assertReset_tx s, assertReset_pass s, hidle, assertReset_idx s,
    assertReset_esc s, assertReset_csum s, assertReset_dest s, assertReset_plen s, assertReset_result s,
    (ready_iff _).2 hidle, txValid_of_idle hidle, assertReset_par s⟩

theorem reset_atRest : State.reset.AtRest := ⟨rfl, rfl, rfl, rfl, rfl⟩

/-- PBUF has the entries that the reference value of PMAX asks for (R9), and the other registers are empty. -/
theorem reset_sizesOk : State.reset.SizesOk := ⟨rfl, rfl, Nat.zero_le _⟩

/-- Settles O52: after reset SFF is between commands, where only the registers' sizes are in question. -/
theorem resetStateIsWellFormed : Obligations.ResetStateIsWellFormed := inv_of_atRest reset_atRest reset_sizesOk

end Sys2Proof.Proofs.Reset

/-! PROOFS. The descriptors that spec/95_test_vectors.md prints, read by the decoder (spec/30_encoding.md section 1). -/

namespace Sys2Proof.Proofs.Vectors

open Sys2Proof Sys2Proof.Machine Sys2Proof.Proofs.Encoding

/-- The descriptor of a command, with no byte behind it, decodes to that command: the round trip of R81 and R82. -/
theorem decode_of_encode_eq {i : Instr} {bytes : List Byte} (hwf : i.wf = true) (hbytes : encode i = bytes) :
    decode bytes = .ok (i, []) := by
  simpa [hbytes] using decodeOfEncodeIsTheCommand i [] hwf

/-- Settles O3: each descriptor is the encoding of the command it stands for, so the round trip reads it back. -/
theorem writtenDescriptorsDecode : Obligations.WrittenDescriptorsDecode :=
  ⟨decode_of_encode_eq rfl rfl, decode_of_encode_eq rfl rfl, decode_of_encode_eq rfl rfl, decode_of_encode_eq rfl rfl,
    decode_of_encode_eq rfl rfl, decode_of_encode_eq rfl rfl, decode_of_encode_eq rfl rfl⟩

end Sys2Proof.Proofs.Vectors
